-- ==== Sys2Proof/Word.lean ====
section
/-! DEFINITION. The machine's word and the byte of its console. -/

namespace Sys2Proof

/-- R2: every register, memory word, instruction word and intermediate value is a 16-bit unsigned word.
R4: `+` on this type is the spec's `+16`, addition modulo 2^16. -/
abbrev Word := BitVec 16

/-- R167: a character of the console is one byte. -/
abbrev Byte := BitVec 8

end Sys2Proof
end

