-- ==== Sys2Proof/Syntax.lean ====
section
/-! DEFINITION. The instructions: one constructor of `Instr` for each row of spec/opcode_table.json. -/

namespace Sys2Proof

/-- R21: the eight general registers. R7 is the link register (R156), R0 carries the argument or result of the
TRAP services; none is hardwired. -/
inductive Reg where
  | r0 | r1 | r2 | r3 | r4 | r5 | r6 | r7
deriving DecidableEq, Repr

/-- R71, R78: the sixteen operations bits 15:12 of an instruction word select from. -/
inductive Opcode where
  | br | add | ld | st | jsr | and | ldr | str | rti | not | ldi | sti | jmp | res | lea | trap
deriving DecidableEq, Repr

/-- R79: the nineteen decoded forms, with the fields of R72. A field is held as the bits that stand in the
instruction word (R77: no scaling, no shifting); its sign extension is part of the meaning. -/
inductive Instr where
  /-- `ADD Rd, Ra, Rb` (R120). -/
  | addReg (dr sr1 sr2 : Reg)
  /-- `ADD Rd, Ra, #i` (R121). -/
  | addImm (dr sr1 : Reg) (imm5 : BitVec 5)
  /-- `AND Rd, Ra, Rb` (R122). -/
  | andReg (dr sr1 sr2 : Reg)
  /-- `AND Rd, Ra, #i` (R123). -/
  | andImm (dr sr1 : Reg) (imm5 : BitVec 5)
  /-- `NOT Rd, Ra` (R124). -/
  | not (dr sr : Reg)
  /-- `BR[n][z][p] #o` (R151). -/
  | br (n z p : Bool) (off9 : BitVec 9)
  /-- `JMP Rb` (R153). -/
  | jmp (base : Reg)
  /-- `JSR #o` (R154). -/
  | jsr (off11 : BitVec 11)
  /-- `JSRR Rb` (R155). -/
  | jsrr (base : Reg)
  /-- `LD Rd, #o` (R132). -/
  | ld (dr : Reg) (off9 : BitVec 9)
  /-- `LDI Rd, #o` (R133). -/
  | ldi (dr : Reg) (off9 : BitVec 9)
  /-- `LDR Rd, Rb, #o` (R134). -/
  | ldr (dr base : Reg) (off6 : BitVec 6)
  /-- `LEA Rd, #o` (R135). -/
  | lea (dr : Reg) (off9 : BitVec 9)
  /-- `ST Rs, #o` (R136). -/
  | st (sr : Reg) (off9 : BitVec 9)
  /-- `STI Rs, #o` (R137). -/
  | sti (sr : Reg) (off9 : BitVec 9)
  /-- `STR Rs, Rb, #o` (R138). -/
  | str (sr base : Reg) (off6 : BitVec 6)
  /-- `TRAP xVV` (R165). -/
  | trap (trapvect8 : BitVec 8)
  /-- `RTI` (R175). -/
  | rti
  /-- The reserved opcode (R176). -/
  | res
deriving DecidableEq, Repr

end Sys2Proof
end

