-- ==== Sys2Proof/WellFormed.lean ====
section
/-! DEFINITION. Well-formedness. Every field of `Instr` carries its width in its type and every value of every
field is legal (R74, R76, R77, R79), so an instruction that is out of range cannot be written and the statements
about instructions need no premise. What the types do not say is the spelling of the bits no field covers: R80
lets them hold anything and names a customary value for each. `customary` checks a WORD for that spelling;
it is what the encoder writes, and the decoder accepts every other spelling too. Log entry 24. -/

namespace Sys2Proof

/-- R80 (and R78 for the opcode numbers, decision D1): for each opcode that leaves bits uncovered, the words it
selects (`rowMask`, `rowMatch`), the bits no field covers, and their customary value. -/
structure IgnoredBits where
  rowMask : Word
  rowMatch : Word
  ignored : Word
  customary : Word
deriving DecidableEq, Repr

/-- R80's table: ADD and AND with bit 5 = 0, NOT, JMP, JSRR, TRAP, RTI, RES. -/
def ignoredBitsTable : List IgnoredBits :=
  [ ⟨0xF020, 0x1000, 0x0018, 0x0000⟩,
    ⟨0xF020, 0x5000, 0x0018, 0x0000⟩,
    ⟨0xF000, 0x9000, 0x003F, 0x003F⟩,
    ⟨0xF000, 0xC000, 0x0E3F, 0x0000⟩,
    ⟨0xF800, 0x4000, 0x063F, 0x0000⟩,
    ⟨0xF000, 0xF000, 0x0F00, 0x0000⟩,
    ⟨0xF000, 0x8000, 0x0FFF, 0x0000⟩,
    ⟨0xF000, 0xD000, 0x0FFF, 0x0000⟩ ]

/-- The word obeys one line of R80's table: if the line is about it, its ignored bits are the customary ones. -/
def IgnoredBits.obeyedBy (l : IgnoredBits) (w : Word) : Bool :=
  !(w &&& l.rowMask == l.rowMatch) || (w &&& l.ignored == l.customary)

/-- R80: the word is in the customary spelling (ignored bits 0, and 1 for NOT). -/
def customary (w : Word) : Bool :=
  ignoredBitsTable.all (·.obeyedBy w)

end Sys2Proof
end

