-- ==== Sys2Proof/Decode.lean ====
section
/-! DEFINITION. The instruction decoder (R70 to R82), total on all 65,536 words, then the encoder (R92), and
the opcode table's rows as data (R79). -/

namespace Sys2Proof

/-- R72: the field of width `n` whose lowest bit is bit `lo` of the instruction word (`ir[lo+n-1:lo]`). -/
def field (lo n : Nat) (ir : Word) : BitVec n := ir.extractLsb' lo n

/-- R74: a 3-bit register field names the general register of that number; all eight values are legal. -/
def Reg.ofBits (b : BitVec 3) : Reg :=
  match b.getLsbD 2, b.getLsbD 1, b.getLsbD 0 with
  | false, false, false => .r0
  | false, false, true  => .r1
  | false, true,  false => .r2
  | false, true,  true  => .r3
  | true,  false, false => .r4
  | true,  false, true  => .r5
  | true,  true,  false => .r6
  | true,  true,  true  => .r7

/-- R74: the 3-bit number of a register. -/
def Reg.bits : Reg → BitVec 3
  | .r0 => 0 | .r1 => 1 | .r2 => 2 | .r3 => 3
  | .r4 => 4 | .r5 => 5 | .r6 => 6 | .r7 => 7

/-- R78: which operation the four opcode bits select (the numbers are decision D1, log entry 3). All sixteen
patterns are listed; none is undefined (R190). -/
def Opcode.ofBits (b : BitVec 4) : Opcode :=
  match b.getLsbD 3, b.getLsbD 2, b.getLsbD 1, b.getLsbD 0 with
  | false, false, false, false => .br
  | false, false, false, true  => .add
  | false, false, true,  false => .ld
  | false, false, true,  true  => .st
  | false, true,  false, false => .jsr
  | false, true,  false, true  => .and
  | false, true,  true,  false => .ldr
  | false, true,  true,  true  => .str
  | true,  false, false, false => .rti
  | true,  false, false, true  => .not
  | true,  false, true,  false => .ldi
  | true,  false, true,  true  => .sti
  | true,  true,  false, false => .jmp
  | true,  true,  false, true  => .res
  | true,  true,  true,  false => .lea
  | true,  true,  true,  true  => .trap

/-- R78: the opcode number of an operation. -/
def Opcode.bits : Opcode → BitVec 4
  | .br  => 0x0 | .add => 0x1 | .ld  => 0x2 | .st   => 0x3
  | .jsr => 0x4 | .and => 0x5 | .ldr => 0x6 | .str  => 0x7
  | .rti => 0x8 | .not => 0x9 | .ldi => 0xA | .sti  => 0xB
  | .jmp => 0xC | .res => 0xD | .lea => 0xE | .trap => 0xF

/-- R71, R103: the operation the top four bits of an instruction word select. -/
def opcodeOf (ir : Word) : Opcode := Opcode.ofBits (field 12 4 ir)

/-- R72: the register fields 11:9 (dr, or sr of a store), 8:6 (sr1, base, sr of NOT) and 2:0 (sr2). -/
def fieldDr (ir : Word) : Reg := Reg.ofBits (field 9 3 ir)
def fieldSr1 (ir : Word) : Reg := Reg.ofBits (field 6 3 ir)
def fieldSr2 (ir : Word) : Reg := Reg.ofBits (field 0 3 ir)

/-- R79: the decode procedure. Total: every word is exactly one instruction. Bits no field covers are not looked
at (R80, decision D2, log entry 4). -/
def decode (ir : Word) : Instr :=
  match opcodeOf ir with
  | .br => .br (ir.getLsbD 11) (ir.getLsbD 10) (ir.getLsbD 9) (field 0 9 ir)
  | .add =>
    match ir.getLsbD 5 with
    | true => .addImm (fieldDr ir) (fieldSr1 ir) (field 0 5 ir)
    | false => .addReg (fieldDr ir) (fieldSr1 ir) (fieldSr2 ir)
  | .ld => .ld (fieldDr ir) (field 0 9 ir)
  | .st => .st (fieldDr ir) (field 0 9 ir)
  | .jsr =>
    match ir.getLsbD 11 with
    | true => .jsr (field 0 11 ir)
    | false => .jsrr (fieldSr1 ir)
  | .and =>
    match ir.getLsbD 5 with
    | true => .andImm (fieldDr ir) (fieldSr1 ir) (field 0 5 ir)
    | false => .andReg (fieldDr ir) (fieldSr1 ir) (fieldSr2 ir)
  | .ldr => .ldr (fieldDr ir) (fieldSr1 ir) (field 0 6 ir)
  | .str => .str (fieldDr ir) (fieldSr1 ir) (field 0 6 ir)
  | .rti => .rti
  | .not => .not (fieldDr ir) (fieldSr1 ir)
  | .ldi => .ldi (fieldDr ir) (field 0 9 ir)
  | .sti => .sti (fieldDr ir) (field 0 9 ir)
  | .jmp => .jmp (fieldSr1 ir)
  | .res => .res
  | .lea => .lea (fieldDr ir) (field 0 9 ir)
  | .trap => .trap (field 0 8 ir)

/-- The instruction the decoder reads from a word numbered as spec/opcode_table.json numbers its bits: bit 0 is
the least significant bit of the one word an instruction has (R70). Bits above `nbits` are 0; a word has 16 bits,
and no decoding is refused (R79). Log entry 23. -/
def decodeTableWord (nbits w : Nat) : Option Instr :=
  some (decode (BitVec.ofNat 16 (w % 2 ^ nbits)))

/-- R92: a field's bits at its position in the word, zeros elsewhere. -/
def place {n : Nat} (lo : Nat) (f : BitVec n) : Word := f.setWidth 16 <<< lo

/-- R92 with the formats of R73: the opcode in bits 15:12 and each field at its position. Bits no field covers get
the customary spelling of R80: 0, and 1 for NOT. -/
def encode : Instr → Word
  | .addReg dr sr1 sr2 =>
    place 12 Opcode.add.bits ||| place 9 dr.bits ||| place 6 sr1.bits ||| place 5 0#1 ||| place 0 sr2.bits
  | .addImm dr sr1 imm5 =>
    place 12 Opcode.add.bits ||| place 9 dr.bits ||| place 6 sr1.bits ||| place 5 1#1 ||| place 0 imm5
  | .andReg dr sr1 sr2 =>
    place 12 Opcode.and.bits ||| place 9 dr.bits ||| place 6 sr1.bits ||| place 5 0#1 ||| place 0 sr2.bits
  | .andImm dr sr1 imm5 =>
    place 12 Opcode.and.bits ||| place 9 dr.bits ||| place 6 sr1.bits ||| place 5 1#1 ||| place 0 imm5
  | .not dr sr => place 12 Opcode.not.bits ||| place 9 dr.bits ||| place 6 sr.bits ||| place 0 0x3F#6
  | .br n z p off9 =>
    place 12 Opcode.br.bits ||| place 11 (BitVec.ofBool n) ||| place 10 (BitVec.ofBool z) |||
      place 9 (BitVec.ofBool p) ||| place 0 off9
  | .jmp base => place 12 Opcode.jmp.bits ||| place 6 base.bits
  | .jsr off11 => place 12 Opcode.jsr.bits ||| place 11 1#1 ||| place 0 off11
  | .jsrr base => place 12 Opcode.jsr.bits ||| place 11 0#1 ||| place 6 base.bits
  | .ld dr off9 => place 12 Opcode.ld.bits ||| place 9 dr.bits ||| place 0 off9
  | .ldi dr off9 => place 12 Opcode.ldi.bits ||| place 9 dr.bits ||| place 0 off9
  | .ldr dr base off6 => place 12 Opcode.ldr.bits ||| place 9 dr.bits ||| place 6 base.bits ||| place 0 off6
  | .lea dr off9 => place 12 Opcode.lea.bits ||| place 9 dr.bits ||| place 0 off9
  | .st sr off9 => place 12 Opcode.st.bits ||| place 9 sr.bits ||| place 0 off9
  | .sti sr off9 => place 12 Opcode.sti.bits ||| place 9 sr.bits ||| place 0 off9
  | .str sr base off6 => place 12 Opcode.str.bits ||| place 9 sr.bits ||| place 6 base.bits ||| place 0 off6
  | .trap trapvect8 => place 12 Opcode.trap.bits ||| place 0 trapvect8
  | .rti => place 12 Opcode.rti.bits
  | .res => place 12 Opcode.res.bits

/-- R79: one row of spec/opcode_table.json: a word `w` selects the row when `w &&& mask = pattern`. -/
structure TableRow where
  mnemonic : String
  mask : Word
  pattern : Word
deriving DecidableEq, Repr

/-- R79: `w & mask == match`. -/
def TableRow.selects (r : TableRow) (w : Word) : Bool := w &&& r.mask == r.pattern

/-- The nineteen rows of spec/opcode_table.json, in its order (`match` and `mask` as they stand there). -/
def opcodeTable : List TableRow :=
  [ ⟨"ADD__register", 0xF020, 0x1000⟩,
    ⟨"ADD__immediate", 0xF020, 0x1020⟩,
    ⟨"AND__register", 0xF020, 0x5000⟩,
    ⟨"AND__immediate", 0xF020, 0x5020⟩,
    ⟨"NOT", 0xF000, 0x9000⟩,
    ⟨"BR", 0xF000, 0x0000⟩,
    ⟨"JMP", 0xF000, 0xC000⟩,
    ⟨"JSR", 0xF800, 0x4800⟩,
    ⟨"JSRR", 0xF800, 0x4000⟩,
    ⟨"LD", 0xF000, 0x2000⟩,
    ⟨"LDI", 0xF000, 0xA000⟩,
    ⟨"LDR", 0xF000, 0x6000⟩,
    ⟨"LEA", 0xF000, 0xE000⟩,
    ⟨"ST", 0xF000, 0x3000⟩,
    ⟨"STI", 0xF000, 0xB000⟩,
    ⟨"STR", 0xF000, 0x7000⟩,
    ⟨"TRAP", 0xF000, 0xF000⟩,
    ⟨"RTI", 0xF000, 0x8000⟩,
    ⟨"RES", 0xF000, 0xD000⟩ ]

/-- The mnemonic of an instruction's row, letter for letter as spec/opcode_table.json has it. -/
def Instr.mnemonic : Instr → String
  | .addReg _ _ _ => "ADD__register"
  | .addImm _ _ _ => "ADD__immediate"
  | .andReg _ _ _ => "AND__register"
  | .andImm _ _ _ => "AND__immediate"
  | .not _ _ => "NOT"
  | .br _ _ _ _ => "BR"
  | .jmp _ => "JMP"
  | .jsr _ => "JSR"
  | .jsrr _ => "JSRR"
  | .ld _ _ => "LD"
  | .ldi _ _ => "LDI"
  | .ldr _ _ _ => "LDR"
  | .lea _ _ => "LEA"
  | .st _ _ => "ST"
  | .sti _ _ => "STI"
  | .str _ _ _ => "STR"
  | .trap _ => "TRAP"
  | .rti => "RTI"
  | .res => "RES"

end Sys2Proof
end

