-- ==== Sys2Proof/Config.lean ====
section
/-! DEFINITION. What is fixed for the machine, and the one value the spec leaves open (R15). -/

namespace Sys2Proof.Config

/-- R29, R15 (MEM_WORDS): the number of memory words, 2^16. -/
def memWords : Nat := 65536

/-- R36, R15 (START_PC): the program start address. -/
def startPc : Word := 0x3000

/-- R171, R15 (IN_PROMPT): the bytes the IN service prints as its prompt. FREE VALUE: the spec gives no text
(decision D11), so this constant has no body and nothing can be proved about it. Log entry 11. -/
opaque inPrompt : List Byte

end Sys2Proof.Config
end

