-- ==== Sys2Proof/Machine/State.lean ====
section
/-! DEFINITION. The machine's state as plain data (10_state.md), its reset value, and the reasons a step can
stop. -/

namespace Sys2Proof.Machine

/-- R21: the eight general registers. -/
structure RegFile where
  r0 : Word
  r1 : Word
  r2 : Word
  r3 : Word
  r4 : Word
  r5 : Word
  r6 : Word
  r7 : Word
deriving DecidableEq, Repr

/-- One word of memory at an address. The spec's smallest addressable unit is the 16-bit word and it has no byte
address (R50, R52), so a cell pairs an address with a word. Log entry 1. -/
abbrev WordCell := Nat × Word

/-- R29: memory, as the list of the words that differ from what an unlisted address reads as, addresses strictly
rising. -/
abbrev Memory := List WordCell

/-- R190, R191: the two fatal errors the fault marker can hold. -/
inductive FatalError where
  /-- R190: "architecturally impossible"; no instruction raises it. Log entry 22. -/
  | undefinedOpcode
  /-- R191: raised by TRAP with the vector `v` outside 0x20..0x25. -/
  | unsupportedTrapVector (v : Byte)
deriving DecidableEq, Repr

/-- R112: which of the two inert opcodes a diagnostic reports. -/
inductive InertOpcode where
  | rti | res
deriving DecidableEq, Repr

/-- R112: what the observer port carries. -/
inductive ObserverEvent where
  /-- The step fetched the word `ir` at address `a` (R101). -/
  | fetch (a ir : Word)
  /-- RTI or RES was executed (R175, R176). -/
  | unimplemented (op : InertOpcode)
deriving DecidableEq, Repr

/-- The whole state of the machine (10_state.md section 1, R32), with the two console streams of R167 and the
record of observer events of R112. -/
structure State where
  /-- R0 to R7 (R21). -/
  regs : RegFile
  /-- The program counter, register-file index 8 (R22, R20). -/
  pc : Word
  /-- The condition-code register, register-file index 9 (R24, R20). -/
  cond : Word
  /-- The 65,536 memory words (R29). -/
  mem : Memory
  /-- The halt flag (R30). -/
  halt : Bool
  /-- The fault marker (R33). -/
  fault : Option FatalError
  /-- R167: the console input still to be read, next byte first. -/
  input : List Byte
  /-- R167: the console output so far, oldest byte first. -/
  output : List Byte
  /-- R112: the observer events so far, oldest first. -/
  events : List ObserverEvent
deriving DecidableEq, Repr

/-- Why a step has NO next state. Both are the spec's own "the step does not complete" (R106); the fatal errors
are not here: they leave a next state whose fault marker is set (R33, R174). -/
inductive Fault where
  /-- Raised by TRAP 0x20 (GETC) and TRAP 0x23 (IN) when INPUT is empty: the step does not complete until the
  host supplies a byte (R167, U7). Safe: no value is invented. -/
  | consoleInputEmpty
  /-- Raised by TRAP 0x22 (PUTS) and TRAP 0x24 (PUTSP) when no terminator stands anywhere in memory: the step
  never completes (R178, U8). Safe: nothing can be claimed past it. -/
  | stringUnterminated
deriving DecidableEq, Repr

/-- Why the model gives no meaning. -/
inductive Refusal where
  /-- Raised by an arm of `exec` that has no meaning yet. No arm is left so. Safe. -/
  | notModelled (mnemonic : String)
  /-- Raised by the host register port only, on an index outside 0..9 (R28, U5). Safe: the access is not made. -/
  | registerIndexOutOfRange (index : Nat)
deriving DecidableEq, Repr

/-- R35: the machine right after reset: registers, PC, COND and memory zero, halted, no fault. The console
streams and the event record are empty (R167 for OUTPUT; log entries 12 and 13 for the other two). -/
def State.reset : State where
  regs := ⟨0, 0, 0, 0, 0, 0, 0, 0⟩
  pc := 0
  cond := 0
  mem := []
  halt := true
  fault := none
  input := []
  output := []
  events := []

end Sys2Proof.Machine
end

