-- ==== Sys2Proof/Machine/Ops.lean ====
section
/-! DEFINITION. The named operations over registers, memory, the console, the observer and the fault marker,
which every meaning is written with. -/

namespace Sys2Proof.Machine

/-! ### General registers (R21) -/

/-- R21: the value of a general register. -/
def RegFile.get (f : RegFile) : Reg → Word
  | .r0 => f.r0 | .r1 => f.r1 | .r2 => f.r2 | .r3 => f.r3
  | .r4 => f.r4 | .r5 => f.r5 | .r6 => f.r6 | .r7 => f.r7

/-- R21: the register file with one register replaced. None is hardwired. -/
def RegFile.set (f : RegFile) (r : Reg) (v : Word) : RegFile :=
  match r with
  | .r0 => { f with r0 := v } | .r1 => { f with r1 := v }
  | .r2 => { f with r2 := v } | .r3 => { f with r3 := v }
  | .r4 => { f with r4 := v } | .r5 => { f with r5 := v }
  | .r6 => { f with r6 := v } | .r7 => { f with r7 := v }

/-- `x[r]`. -/
def State.reg (s : State) (r : Reg) : Word := s.regs.get r

/-- `x[r] <- v`. -/
def State.setReg (s : State) (r : Reg) (v : Word) : State := { s with regs := s.regs.set r v }

/-- `pc <- v`. -/
def State.setPc (s : State) (v : Word) : State := { s with pc := v }

/-- `cond <- v`. -/
def State.setCond (s : State) (v : Word) : State := { s with cond := v }

/-- `halt <- b` (R30). -/
def State.setHalt (s : State) (b : Bool) : State := { s with halt := b }

/-! ### Memory (R29, R50 to R59) -/

/-- R35: what an address that is not listed reads as: memory is cleared by reset. -/
def Memory.unlisted : Word := 0

/-- The word at an address. -/
def Memory.read : Memory → Word → Word
  | [], _ => Memory.unlisted
  | (k, v) :: m, a => if a.toNat = k then v else Memory.read m a

/-- Put a listed word into an ascending list, replacing an entry of the same address. -/
def Memory.insert : Memory → Nat → Word → Memory
  | [], a, v => [(a, v)]
  | (k, x) :: m, a, v =>
    if a < k then (a, v) :: (k, x) :: m
    else if a = k then (a, v) :: m
    else (k, x) :: Memory.insert m a v

/-- Take an address out of the list. -/
def Memory.erase (m : Memory) (a : Nat) : Memory := m.filter (fun c => c.1 != a)

/-- The memory with one word replaced, in the canonical form: writing what an unlisted address reads as removes
the entry. -/
def Memory.write (m : Memory) (a v : Word) : Memory :=
  if v = Memory.unlisted then Memory.erase m a.toNat else Memory.insert m a.toNat v

/-- The canonical form: addresses strictly rising and below 2^16 (R29), no entry equal to what an unlisted address
reads as. -/
abbrev Memory.wf (m : Memory) : Prop :=
  m.Pairwise (fun c d => c.1 < d.1) ∧ ∀ c ∈ m, c.1 < Config.memWords ∧ c.2 ≠ Memory.unlisted

/-- R6: `MemRead(a)`. Any 16-bit address, no failure, no side effect (R51, R55). -/
def State.readMem (s : State) (a : Word) : Word := s.mem.read a

/-- R7: `MemWrite(a, v)`. -/
def State.writeMem (s : State) (a v : Word) : State := { s with mem := s.mem.write a v }

/-! ### Console (R167) and observer (R112) -/

/-- R167: append bytes to OUTPUT (`emit ConsoleOut`, one or several; `emit ConsolePrompt`). -/
def State.emitOut (s : State) (bytes : List Byte) : State := { s with output := s.output ++ bytes }

/-- R167: replace INPUT by what is left after a read. -/
def State.setInput (s : State) (bytes : List Byte) : State := { s with input := bytes }

/-- R9, R112: report an observer event. -/
def State.emitEvent (s : State) (e : ObserverEvent) : State := { s with events := s.events ++ [e] }

/-! ### Taking a fatal error, and the trap link

R198: the machine has no handler to enter: no vector is fetched, no status is saved and PC is not diverted. What
TRAP saves is the return address in R7; what a fatal error does is set the fault marker. R199: there is no trap
return; RTI restores nothing (`execRti`). -/

/-- R156: `x[7] <- pc`, the return address, by JSR, JSRR and every TRAP (R198). -/
def State.link (s : State) : State := s.setReg .r7 s.pc

/-- R8, R33: `raise Fatal<Name>(info)`: set the fault marker; the halt flag keeps its value. -/
def State.raiseFatal (s : State) (e : FatalError) : State := { s with fault := some e }

end Sys2Proof.Machine
end

