-- ==== Sys2Proof/Machine/Flags.lean ====
section
/-! DEFINITION. The condition-code register: its patterns, `setcc`, and the branch test. -/

namespace Sys2Proof.Machine

/-- R24: the three patterns of COND. -/
def condPos : Word := 0x0001
def condZro : Word := 0x0002
def condNeg : Word := 0x0004

/-- R26: the pattern that classifies a value read as a signed integer. -/
def condOf (v : Word) : Word :=
  if v = 0 then condZro else if v.getLsbD 15 then condNeg else condPos

/-- R26: `setcc(r)`: read the register (after the instruction wrote it) and set COND from it. -/
def State.setcc (s : State) (r : Reg) : State := s.setCond (condOf (s.reg r))

/-- R27, R141: how each of the seven flag-setting instructions ends: write the destination, then `setcc` it. -/
def State.writeResult (s : State) (dr : Reg) (v : Word) : State := (s.setReg dr v).setcc dr

/-- R151: whether BR is taken, each condition bit an equality on the whole of COND (decision D19 for a COND that
is none of the three; log entry 18). -/
def branchTaken (n z p : Bool) (cond : Word) : Bool :=
  (n && cond == condNeg) || (z && cond == condZro) || (p && cond == condPos)

end Sys2Proof.Machine
end

