-- ==== Sys2Proof/Machine/Operands.lean ====
section
/-! DEFINITION. Operand forms: sign and zero extension, the bytes of a word, and the effective addresses. -/

namespace Sys2Proof.Machine

/-- R3: `sext_N`, for the N-bit field `f`: zeros above the field if its sign bit is 0, ones (`all-ones << N`) if
it is 1. The decoder has masked the field (R3), so `f` holds exactly N bits. -/
def sext {n : Nat} (f : BitVec n) : Word :=
  if f.msb then f.setWidth 16 ||| (BitVec.allOnes 16 <<< n) else f.setWidth 16

/-- `zext_8`: a byte with zeros above. -/
def zext8 (b : Byte) : Word := b.setWidth 16

/-- R52: bits 7:0 of a word. -/
def lowByte (w : Word) : Byte := w.extractLsb' 0 8

/-- R52: bits 15:8 of a word. -/
def highByte (w : Word) : Byte := w.extractLsb' 8 8

/-- R130, PC-relative: the advanced PC plus a signed offset (R131: the PC of this step). The same sum is the
target of BR and JSR (R127). -/
def State.pcRelative {n : Nat} (s : State) (off : BitVec n) : Word := s.pc + sext off

/-- R130, indirect: the word at the PC-relative address is the effective address. -/
def State.indirect (s : State) (off9 : BitVec 9) : Word := s.readMem (s.pcRelative off9)

/-- R130, base + offset: the current contents of the base register plus a signed offset (R131). -/
def State.baseOffset (s : State) (base : Reg) (off6 : BitVec 6) : Word := s.reg base + sext off6

end Sys2Proof.Machine
end

