-- ==== Sys2Proof/Machine/System.lean ====
section
/-! DEFINITION. TRAP with its six services, RTI, RES (44_system.md). On entry PC is already advanced (R102). -/

namespace Sys2Proof.Machine

/-- R166: the six services. -/
inductive TrapService where
  | getc | out | puts | in_ | putsp | halt
deriving DecidableEq, Repr

/-- R166: the vector of each service. -/
def TrapService.vector : TrapService → Byte
  | .getc => 0x20 | .out => 0x21 | .puts => 0x22 | .in_ => 0x23 | .putsp => 0x24 | .halt => 0x25

/-- R166: the recognised vectors, 0x20 to 0x25; any other names no service (R174). -/
def TrapService.ofVector (v : Byte) : Option TrapService :=
  if v = 0x20 then some .getc
  else if v = 0x21 then some .out
  else if v = 0x22 then some .puts
  else if v = 0x23 then some .in_
  else if v = 0x24 then some .putsp
  else if v = 0x25 then some .halt
  else none

/-- R168: read one byte from INPUT into R0, bits 15:8 cleared (decision D9, log entry 9). With no input the step
does not complete (R167). -/
def serviceGetc (s : State) : Host.Outcome State Fault Refusal :=
  match s.input with
  | [] => .fault .consoleInputEmpty
  | c :: rest => .next ((s.setInput rest).setReg .r0 (zext8 c))

/-- R169: write the low byte of R0. -/
def serviceOut (s : State) : Host.Outcome State Fault Refusal :=
  .next (s.emitOut [lowByte (s.reg .r0)])

/-- R170: the bytes PUTS writes from address `a` on, the low byte of each word (decision D10, log entry 10) up to
the first zero word; none if the first `fuel` words hold no zero word. Addresses wrap (R65). -/
def putsBytes : Nat → Memory → Word → Option (List Byte)
  | 0, _, _ => none
  | fuel + 1, m, a =>
    let w := m.read a
    if w = 0 then some []
    else (putsBytes fuel m (a + 1)).map (lowByte w :: ·)

/-- R172: the bytes PUTSP writes from address `a` on, the low then the high byte of each word up to the first zero
byte; none if the first `fuel` words hold no zero byte. -/
def putspBytes : Nat → Memory → Word → Option (List Byte)
  | 0, _, _ => none
  | fuel + 1, m, a =>
    let lo := lowByte (m.read a)
    let hi := highByte (m.read a)
    if lo = 0 then some []
    else if hi = 0 then some [lo]
    else (putspBytes fuel m (a + 1)).map (fun bytes => lo :: hi :: bytes)

/-- How PUTS and PUTSP end: the bytes go to OUTPUT; a scan of all 65,536 words that met no terminator repeats for
ever, so the step has no next state (R178, log entry 17). -/
def State.emitString (s : State) (bytes : Option (List Byte)) : Host.Outcome State Fault Refusal :=
  match bytes with
  | none => .fault .stringUnterminated
  | some bs => .next (s.emitOut bs)

/-- R170. -/
def servicePuts (s : State) : Host.Outcome State Fault Refusal :=
  s.emitString (putsBytes Config.memWords s.mem (s.reg .r0))

/-- R171: prompt, read, echo (the order is decision D11, log entry 11), then R0 as GETC. -/
def serviceIn (s : State) : Host.Outcome State Fault Refusal :=
  match s.input with
  | [] => .fault .consoleInputEmpty
  | c :: rest => .next (((s.emitOut (Config.inPrompt ++ [c])).setInput rest).setReg .r0 (zext8 c))

/-- R172. -/
def servicePutsp (s : State) : Host.Outcome State Fault Refusal :=
  s.emitString (putspBytes Config.memWords s.mem (s.reg .r0))

/-- R173: nothing is printed. -/
def serviceHalt (s : State) : Host.Outcome State Fault Refusal :=
  .next (s.setHalt true)

/-- R165: R7 first, for every vector, then the service; R174: an unsupported vector sets the fault marker
(decision D8, log entry 8). -/
def execTrap (trapvect8 : Byte) (s : State) : Host.Outcome State Fault Refusal :=
  match TrapService.ofVector trapvect8 with
  | some .getc => serviceGetc s.link
  | some .out => serviceOut s.link
  | some .puts => servicePuts s.link
  | some .in_ => serviceIn s.link
  | some .putsp => servicePutsp s.link
  | some .halt => serviceHalt s.link
  | none => .next (s.link.raiseFatal (.unsupportedTrapVector trapvect8))

/-- R175, R195: a no-op with a diagnostic; nothing is restored or popped (R199). -/
def execRti (s : State) : Host.Outcome State Fault Refusal :=
  .next (s.emitEvent (.unimplemented .rti))

/-- R176, R195: a no-op with a diagnostic. -/
def execRes (s : State) : Host.Outcome State Fault Refusal :=
  .next (s.emitEvent (.unimplemented .res))

end Sys2Proof.Machine
end

