-- ==== Sys2Proof/Machine/Fetch.lean ====
section
/-! DEFINITION. The fetch unit (40_fetch_step.md R100 to R102): when a step is taken, the fetch, the advance. -/

namespace Sys2Proof.Machine

/-- R100: a step is taken only while the halt flag is false and the fault marker is none (decision D4, log
entry 6). -/
def State.running (s : State) : Bool := !s.halt && s.fault.isNone

/-- R101: the instruction word of this step, the word at PC. The fetch cannot fail. -/
def State.fetchWord (s : State) : Word := s.readMem s.pc

/-- R101, R102: the state the instruction executes in: the Fetch event reported and PC advanced by 1 with
wraparound. -/
def State.afterFetch (s : State) : State :=
  (s.emitEvent (.fetch s.pc s.fetchWord)).setPc (s.pc + 1)

/-- A state that runs the word `ir` in its very next step: the word at PC, and the two gates of R100 open. -/
def State.placeAtFetch (s : State) (ir : Word) : State :=
  { s.writeMem s.pc ir with halt := false, fault := none }

end Sys2Proof.Machine
end

