-- ==== Sys2Proof/Machine/Step.lean ====
section
/-! DEFINITION. One step of the machine (R105). -/

namespace Sys2Proof.Machine

/-- R105: a machine that is not running does nothing (R100); otherwise fetch, advance, decode and execute. -/
def step (s : State) : Host.Outcome State Fault Refusal :=
  if s.running then exec (decode s.fetchWord) s.afterFetch else .next s

/-- `s` with an instruction word, its bits numbered as spec/opcode_table.json numbers them and those above `nbits`
zero, stored where the next step fetches, and the machine running. It stands for the host's load and `init`
(R218). Log entry 21. -/
def State.withFetchWord (s : State) (nbits w : Nat) : State :=
  s.placeAtFetch (BitVec.ofNat 16 (w % 2 ^ nbits))

end Sys2Proof.Machine
end

