-- ==== Sys2Proof/Machine/HostPort.lean ====
section
/-! DEFINITION. The block's ports as actions (10_state.md R35 to R42): what the driver, the loader and the console
host can do between two steps. -/

namespace Sys2Proof.Machine

/-- R35, R215: the `reset` event on a machine at any time between steps: the core's state takes its reset value.
The console streams and the event record are the host's (R32) and stay (log entry 19). -/
def State.applyReset (s : State) : State :=
  { State.reset with input := s.input, output := s.output, events := s.events }

/-- R36: `init` clears the halt flag and sets PC to the program start address, and changes nothing else; in
particular not the fault marker (decision D20, log entry 19). -/
def State.applyInit (s : State) : State := (s.setHalt false).setPc Config.startPc

/-- R37: `force_halt`. -/
def State.forceHalt (s : State) : State := s.setHalt true

/-- R20: the general registers as register-file indices 0 to 7. -/
def Reg.ofIndex : Nat → Option Reg
  | 0 => some .r0 | 1 => some .r1 | 2 => some .r2 | 3 => some .r3
  | 4 => some .r4 | 5 => some .r5 | 6 => some .r6 | 7 => some .r7
  | _ => none

/-- R39: read a register through the host register port: 0 to 7 the general registers, 8 PC, 9 COND (decision D5,
log entry 7); any other index is refused (R28). -/
def State.hostReadReg (s : State) (index : Nat) : Except Refusal Word :=
  match Reg.ofIndex index with
  | some r => .ok (s.reg r)
  | none =>
    if index = 8 then .ok s.pc
    else if index = 9 then .ok s.cond
    else .error (.registerIndexOutOfRange index)

/-- R39: write a register through the host register port, with the same numbering and the same refusal. -/
def State.hostWriteReg (s : State) (index : Nat) (v : Word) : Host.Outcome State Fault Refusal :=
  match Reg.ofIndex index with
  | some r => .next (s.setReg r v)
  | none =>
    if index = 8 then .next (s.setPc v)
    else if index = 9 then .next (s.setCond v)
    else .refused (.registerIndexOutOfRange index)

/-- R40: the loader writes an image word by word from an address up, wrapping (R51). -/
def State.loadImage (s : State) (a : Word) : List Word → State
  | [] => s
  | w :: rest => (s.writeMem a w).loadImage (a + 1) rest

/-- R167: the host supplies more console input. -/
def State.supplyInput (s : State) (bytes : List Byte) : State := s.setInput (s.input ++ bytes)

/-- R217: the launch state of a program: reset, load at the start address, `init`. -/
def State.launch (image : List Word) : State := (State.reset.loadImage Config.startPc image).applyInit

/-- R38: the events that arrive at the block's input ports. Reads (R39, R40, and the levels `halt` and `fault`)
change nothing and are the functions `hostReadReg`, `readMem` and the two fields. -/
inductive PortEvent where
  | reset
  | init
  | step
  | forceHalt
  | writeReg (index : Nat) (v : Word)
  | writeMem (a v : Word)
  | load (a : Word) (image : List Word)
  | supplyInput (bytes : List Byte)
deriving DecidableEq, Repr

/-- R38, R41: what the block does on one event; a step is one indivisible transition among them. -/
def port (e : PortEvent) (s : State) : Host.Outcome State Fault Refusal :=
  match e with
  | .reset => .next s.applyReset
  | .init => .next s.applyInit
  | .step => step s
  | .forceHalt => .next s.forceHalt
  | .writeReg index v => s.hostWriteReg index v
  | .writeMem a v => .next (s.writeMem a v)
  | .load a image => .next (s.loadImage a image)
  | .supplyInput bytes => .next (s.supplyInput bytes)

end Sys2Proof.Machine
end

