-- ==== Sys2Proof/Machine/Run.lean ====
section
/-! DEFINITION. A run, its end, and the driver's run loop (40_fetch_step.md R109, R110). -/

namespace Sys2Proof.Machine

/-- The halt flag is true and the fault marker none. It is a test of one state, true of `State.reset` too: a run
that ends normally is `EndsNormally`. -/
def State.haltedCleanly (s : State) : Bool := s.halt && s.fault.isNone

/-- R33: the fault marker is set. -/
def State.faulted (s : State) : Bool := s.fault.isSome

/-- The events a run is made of: all but `reset` and `init`, which end it as such; an `init` begins another run
(R220; log entry 26). -/
def PortEvent.inRun : PortEvent → Bool
  | .reset => false
  | .init => false
  | .step => true
  | .forceHalt => true
  | .writeReg _ _ => true
  | .writeMem _ _ => true
  | .load _ _ => true
  | .supplyInput _ => true

/-- R110: `Run s past t`: the run that `init` begins on the machine `s` has come to the state `t` by the events
`past`, the latest first. A state halted with no fault is the run's end, so no event leads on from it. A step that
cannot complete (R106) is no event of a run: the host supplies input and the machine is stepped again. -/
inductive Run (s : State) : List PortEvent → State → Prop where
  | init : Run s [] s.applyInit
  | next {past : List PortEvent} {u t : State} {e : PortEvent} :
      Run s past u → u.haltedCleanly = false → e.inRun = true → port e u = .next t → Run s (e :: past) t

/-- R110: the run that `init` begins on the machine `s` ends normally, after the events `past` (the latest first),
in `t`: the first state that follows `init` with `halt = true` and fault marker none. -/
structure EndsNormally (s : State) (past : List PortEvent) (t : State) : Prop where
  run : Run s past t
  halted : t.haltedCleanly = true

/-- How the driver's run loop ends. -/
inductive RunEnd where
  /-- The driver read `halt` true: a normal end (R110). -/
  | normal (t : State)
  /-- The driver read the fault marker set: no normal end (R33). -/
  | faulted (t : State)
  /-- A step could not complete in this state (R106): it waits for the console or scans for ever. -/
  | waiting (t : State) (why : Fault)
  /-- A step was refused; no step is. -/
  | refused (t : State) (why : Refusal)
  /-- The driver ceased to call `step` (R109). -/
  | ceased (t : State)
deriving DecidableEq, Repr

/-- R109: the driver calls `step` until the halt flag is set, or ceases to call it after `calls` calls. It also
stops at a set fault marker, where no step changes anything any more (R33; log entry 26). -/
def driverLoop : Nat → State → RunEnd
  | 0, s => if s.faulted then .faulted s else if s.halt then .normal s else .ceased s
  | calls + 1, s =>
    if s.faulted then .faulted s
    else if s.halt then .normal s
    else
      match step s with
      | .next t => driverLoop calls t
      | .fault why => .waiting s why
      | .refused why => .refused s why

end Sys2Proof.Machine
end

