-- ==== Sys2Proof/Safety.lean ====
section
/-! DEFINITION. The terms the statements use: the invariant of the state and the vocabulary of frames (what a
step leaves unchanged). -/

namespace Sys2Proof.Machine

/-- R25: the values COND holds in a run the host does not disturb. -/
abbrev CondReachable (c : Word) : Prop := c = 0x0000 ∨ c = 0x0001 ∨ c = 0x0002 ∨ c = 0x0004

/-- R190, R191: what the fault marker can hold: nothing, or an unsupported vector, one outside 0x20..0x25. -/
abbrev FaultReachable (f : Option FatalError) : Prop :=
  f = none ∨ ∃ v : Byte, (v.toNat < 0x20 ∨ 0x25 < v.toNat) ∧ f = some (.unsupportedTrapVector v)

/-- The invariant of the state: memory in its canonical form, COND one of its reachable values, the fault marker
one the machine can set. -/
structure State.Inv (s : State) : Prop where
  mem : s.mem.wf
  cond : CondReachable s.cond
  fault : FaultReachable s.fault

/-- R26: COND classifies `v` read as a signed integer. -/
def CondClassifies (cond v : Word) : Prop :=
  (0 < v.toInt → cond = 0x0001) ∧ (v.toInt = 0 → cond = 0x0002) ∧ (v.toInt < 0 → cond = 0x0004)

/-- Every general register but those listed is unchanged. -/
def RegsSameBut (rs : List Reg) (s t : State) : Prop := ∀ r, r ∉ rs → t.reg r = s.reg r

/-- Every memory word is unchanged. -/
def MemSame (s t : State) : Prop := ∀ a, t.readMem a = s.readMem a

/-- Every memory word but the one at `a` is unchanged. -/
def MemSameBut (a : Word) (s t : State) : Prop := ∀ b, b ≠ a → t.readMem b = s.readMem b

/-- The halt flag, the fault marker, the console streams and the event record are unchanged. -/
def QuietSame (s t : State) : Prop :=
  t.halt = s.halt ∧ t.fault = s.fault ∧ t.input = s.input ∧ t.output = s.output ∧ t.events = s.events

/-- The whole effect of a flag-setting instruction (R27): `dr` holds `v`, COND classifies `v`, all else is
unchanged. -/
def WritesOnly (dr : Reg) (v : Word) (s t : State) : Prop :=
  t.reg dr = v ∧ CondClassifies t.cond v ∧
    RegsSameBut [dr] s t ∧ t.pc = s.pc ∧ MemSame s t ∧ QuietSame s t

/-- The whole effect of a store: the word at `a` is `v`, all else is unchanged. -/
def StoresOnly (a v : Word) (s t : State) : Prop :=
  t.readMem a = v ∧ MemSameBut a s t ∧
    RegsSameBut [] s t ∧ t.pc = s.pc ∧ t.cond = s.cond ∧ QuietSame s t

/-- The whole effect of a control transfer but for the registers in `rs`: PC is `target`, all else is
unchanged. -/
def TransfersOnly (rs : List Reg) (target : Word) (s t : State) : Prop :=
  t.pc = target ∧ RegsSameBut rs s t ∧ t.cond = s.cond ∧ MemSame s t ∧ QuietSame s t

/-- What every TRAP does and leaves (R165, R177): R7 holds the return address; PC, COND and memory are unchanged,
and so is every general register but R7 and those in `rs`. -/
def TrapLinksOnly (rs : List Reg) (s t : State) : Prop :=
  t.reg .r7 = s.pc ∧ RegsSameBut (.r7 :: rs) s t ∧ t.pc = s.pc ∧ t.cond = s.cond ∧ MemSame s t

/-- R172: the `m`-th byte of the packed string at `a`: low byte of a word first, then its high byte. -/
def State.packedByte (s : State) (a : Word) (m : Nat) : Byte :=
  (s.readMem (a + BitVec.ofNat 16 (m / 2))).extractLsb' (8 * (m % 2)) 8

/-- R27: the register whose new value an instruction classifies into COND; none for an instruction that leaves
COND unchanged. -/
def flagDest : Instr → Option Reg
  | .addReg dr _ _ => some dr
  | .addImm dr _ _ => some dr
  | .andReg dr _ _ => some dr
  | .andImm dr _ _ => some dr
  | .not dr _ => some dr
  | .br _ _ _ _ => none
  | .jmp _ => none
  | .jsr _ => none
  | .jsrr _ => none
  | .ld dr _ => some dr
  | .ldi dr _ => some dr
  | .ldr dr _ _ => some dr
  | .lea dr _ => some dr
  | .st _ _ => none
  | .sti _ _ => none
  | .str _ _ _ => none
  | .trap _ => none
  | .rti => none
  | .res => none

/-- The general registers an instruction's rule names as written: its destination, R7 for JSR, JSRR and TRAP, and
R0 for the services GETC and IN (R177). -/
def regsWritten : Instr → List Reg
  | .addReg dr _ _ => [dr]
  | .addImm dr _ _ => [dr]
  | .andReg dr _ _ => [dr]
  | .andImm dr _ _ => [dr]
  | .not dr _ => [dr]
  | .br _ _ _ _ => []
  | .jmp _ => []
  | .jsr _ => [.r7]
  | .jsrr _ => [.r7]
  | .ld dr _ => [dr]
  | .ldi dr _ => [dr]
  | .ldr dr _ _ => [dr]
  | .lea dr _ => [dr]
  | .st _ _ => []
  | .sti _ _ => []
  | .str _ _ _ => []
  | .trap v => if v = 0x20 ∨ v = 0x23 then [.r7, .r0] else [.r7]
  | .rti => []
  | .res => []

/-- The address an instruction stores to in the state it executes in (R130, R136 to R138); none for an instruction
that stores nothing. -/
def storeAddress (i : Instr) (s : State) : Option Word :=
  match i with
  | .addReg _ _ _ => none
  | .addImm _ _ _ => none
  | .andReg _ _ _ => none
  | .andImm _ _ _ => none
  | .not _ _ => none
  | .br _ _ _ _ => none
  | .jmp _ => none
  | .jsr _ => none
  | .jsrr _ => none
  | .ld _ _ => none
  | .ldi _ _ => none
  | .ldr _ _ _ => none
  | .lea _ _ => none
  | .st _ off9 => some (s.pcRelative off9)
  | .sti _ off9 => some (s.indirect off9)
  | .str _ base off6 => some (s.baseOffset base off6)
  | .trap _ => none
  | .rti => none
  | .res => none

/-- The instruction is one of TRAP, RTI, RES, the only ones whose rules name the halt flag, the fault marker, a
console stream or an observer event. -/
def isSystem : Instr → Bool
  | .trap _ => true
  | .rti => true
  | .res => true
  | .addReg _ _ _ => false
  | .addImm _ _ _ => false
  | .andReg _ _ _ => false
  | .andImm _ _ _ => false
  | .not _ _ => false
  | .br _ _ _ _ => false
  | .jmp _ => false
  | .jsr _ => false
  | .jsrr _ => false
  | .ld _ _ => false
  | .ldi _ _ => false
  | .ldr _ _ _ => false
  | .lea _ _ => false
  | .st _ _ => false
  | .sti _ _ => false
  | .str _ _ _ => false

/-- An outcome with its next state, if it has one, changed by `f`: for comparing two runs. -/
def mapNext (f : State → State) : Host.Outcome State Fault Refusal → Host.Outcome State Fault Refusal
  | .next t => .next (f t)
  | .fault r => .fault r
  | .refused r => .refused r

/-- The state with a longer past: earlier observer events and earlier console output before those it holds. -/
def State.withPast (es : List ObserverEvent) (bs : List Byte) (s : State) : State :=
  { s with events := es ++ s.events, output := bs ++ s.output }

end Sys2Proof.Machine
end

