-- ==== Sys2Proof/Certificates/Slice0/Obligations.lean ====
section
/-! DEFINITION. The statements about the machine, each with the rule of spec/ it formalises. Offsets and immediates
are sign-extended with the library's `signExtend`, fields are cut with `extractLsb'`: a statement does not borrow
the model's own `sext` or `field`. -/

open Sys2Proof Sys2Proof.Machine

/-! ### Encoding -/

/-- R92, R79: decoding the encoded word of ANY instruction gives it back, every operand at every value. -/
def Obligations.DecodeOfEncodeGivesInstructionBack : Prop :=
  ∀ i : Instr, decode (encode i) = i

/-- R92 the other way, on the words in the customary spelling of R80 (spec decision D2, log entry 4): encoding what
such a word decodes to gives the word back; and the encoder writes only such words. -/
def Obligations.EncodeOfDecodeGivesCustomaryWordBack : Prop :=
  (∀ w : Word, customary w = true → encode (decode w) = w) ∧
    ∀ i : Instr, customary (encode i) = true

/-- R80 (spec decision D2, log entry 4): changing any of the bits no field covers changes nothing in what a word
decodes to. One clause for each line of R80's table, the rows by the opcode numbers of decision D1. -/
def Obligations.UncoveredBitsAreIgnoredByDecode : Prop :=
  ∀ w x : Word,
    (w &&& 0xF020 = 0x1000 → x &&& ~~~0x0018 = 0 → decode (w ^^^ x) = decode w) ∧
    (w &&& 0xF020 = 0x5000 → x &&& ~~~0x0018 = 0 → decode (w ^^^ x) = decode w) ∧
    (w &&& 0xF000 = 0x9000 → x &&& ~~~0x003F = 0 → decode (w ^^^ x) = decode w) ∧
    (w &&& 0xF000 = 0xC000 → x &&& ~~~0x0E3F = 0 → decode (w ^^^ x) = decode w) ∧
    (w &&& 0xF800 = 0x4000 → x &&& ~~~0x063F = 0 → decode (w ^^^ x) = decode w) ∧
    (w &&& 0xF000 = 0xF000 → x &&& ~~~0x0F00 = 0 → decode (w ^^^ x) = decode w) ∧
    (w &&& 0xF000 = 0x8000 → x &&& ~~~0x0FFF = 0 → decode (w ^^^ x) = decode w) ∧
    (w &&& 0xF000 = 0xD000 → x &&& ~~~0x0FFF = 0 → decode (w ^^^ x) = decode w)

/-- R79 (opcode numbers: decision D1, log entry 3): every one of the 65,536 words selects exactly one of the
nineteen rows of the opcode table, and decodes to that row's instruction. -/
def Obligations.EveryWordDecodesToItsOneTableRow : Prop :=
  ∀ w : Word, ∃ r ∈ opcodeTable, r.selects w = true ∧ (decode w).mnemonic = r.mnemonic ∧
    ∀ r' ∈ opcodeTable, r'.selects w = true → r' = r

/-- Words written out from R73 and R78, one or more of each family (operate, data movement, control transfer,
system), decode to the instruction they stand for (opcode numbers: decision D1, log entry 3). -/
def Obligations.SampleWordsDecodeAsWritten : Prop :=
  decode 0b0001010011000100#16 = .addReg .r2 .r3 .r4 ∧
  decode 0b0001000001100101#16 = .addImm .r0 .r1 5 ∧
  decode 0b0101101110110000#16 = .andImm .r5 .r6 (-16) ∧
  decode 0b1001001010111111#16 = .not .r1 .r2 ∧
  decode 0b1010000000001111#16 = .ldi .r0 15 ∧
  decode 0b0110001010111111#16 = .ldr .r1 .r2 (-1) ∧
  decode 0b0011011000000101#16 = .st .r3 5 ∧
  decode 0b0000010000000101#16 = .br false true false 5 ∧
  decode 0b0100110000000000#16 = .jsr (-1024) ∧
  decode 0b0100000010000000#16 = .jsrr .r2 ∧
  decode 0b1111000000100101#16 = .trap 0x25 ∧
  decode 0b1000000000000000#16 = .rti

/-! ### Operands, flags, memory -/

/-- R3: for every N in 1..16, `sext_N` keeps the field's bits, copies its sign bit above them, and so keeps its
signed value; from width 16 the value is unchanged. -/
def Obligations.SignExtensionCopiesTheSignBit : Prop :=
  ∀ n : Nat, 1 ≤ n → n ≤ 16 → ∀ f : BitVec n,
    (∀ i, i < n → (sext f).getLsbD i = f.getLsbD i) ∧
    (∀ i, n ≤ i → i < 16 → (sext f).getLsbD i = f.getLsbD (n - 1)) ∧
    (sext f).toInt = f.toInt ∧
    ∀ v : Word, sext v = v

/-- R26: `setcc(r)` reads the register, classifies its value as a signed integer, writes exactly one of the three
patterns to the whole of COND, and changes nothing else. -/
def Obligations.SetccClassifiesTheSignedValue : Prop :=
  ∀ (s : State) (r : Reg),
    CondClassifies (s.setcc r).cond (s.reg r) ∧ RegsSameBut [] s (s.setcc r) ∧ (s.setcc r).pc = s.pc ∧
      MemSame s (s.setcc r) ∧ QuietSame s (s.setcc r)

/-- R7: `MemWrite(a, v)` replaces the word at `a` with `v` and changes no other word and no register. -/
def Obligations.MemWriteReplacesOneWord : Prop :=
  ∀ (s : State) (a v : Word), StoresOnly a v s (s.writeMem a v)

/-- R59, as data: a later write to the same address wins, and writes to different addresses give the same memory in
either order (the canonical form of log entry 1 makes equal memories equal data). -/
def Obligations.MemWritesOverwriteAndCommute : Prop :=
  ∀ (s : State) (a b v w : Word), s.mem.wf →
    (s.writeMem a v).writeMem a w = s.writeMem a w ∧
    (a ≠ b → (s.writeMem a v).writeMem b w = (s.writeMem b w).writeMem a v)

/-! ### Operate instructions -/

/-- R120: the register form of ADD names its operands by bits 11:9, 8:6 and 2:0, always completes, and leaves the
wrapped sum in dr with COND classifying it. The sources are read before dr is written, so dr may be one of them. -/
def Obligations.AddRegisterWritesTheWrappedSum : Prop :=
  (∀ w : Word, opcodeOf w = .add → w.getLsbD 5 = false →
    decode w = .addReg (Reg.ofBits (w.extractLsb' 9 3)) (Reg.ofBits (w.extractLsb' 6 3))
      (Reg.ofBits (w.extractLsb' 0 3))) ∧
  ∀ (s : State) (dr sr1 sr2 : Reg), ∃ t, exec (.addReg dr sr1 sr2) s = .next t ∧
    WritesOnly dr (BitVec.ofNat 16 ((s.reg sr1).toNat + (s.reg sr2).toNat)) s t

/-- R121: the immediate form of ADD. -/
def Obligations.AddImmediateWritesTheWrappedSum : Prop :=
  (∀ w : Word, opcodeOf w = .add → w.getLsbD 5 = true →
    decode w = .addImm (Reg.ofBits (w.extractLsb' 9 3)) (Reg.ofBits (w.extractLsb' 6 3)) (w.extractLsb' 0 5)) ∧
  ∀ (s : State) (dr sr1 : Reg) (imm5 : BitVec 5), ∃ t, exec (.addImm dr sr1 imm5) s = .next t ∧
    WritesOnly dr (s.reg sr1 + imm5.signExtend 16) s t

/-- R122: the register form of AND sets the flags too. -/
def Obligations.AndRegisterWritesTheBitwiseAnd : Prop :=
  (∀ w : Word, opcodeOf w = .and → w.getLsbD 5 = false →
    decode w = .andReg (Reg.ofBits (w.extractLsb' 9 3)) (Reg.ofBits (w.extractLsb' 6 3))
      (Reg.ofBits (w.extractLsb' 0 3))) ∧
  ∀ (s : State) (dr sr1 sr2 : Reg), ∃ t, exec (.andReg dr sr1 sr2) s = .next t ∧
    WritesOnly dr (s.reg sr1 &&& s.reg sr2) s t

/-- R123: the immediate form of AND; the immediate is sign-extended before the AND. -/
def Obligations.AndImmediateWritesTheBitwiseAnd : Prop :=
  (∀ w : Word, opcodeOf w = .and → w.getLsbD 5 = true →
    decode w = .andImm (Reg.ofBits (w.extractLsb' 9 3)) (Reg.ofBits (w.extractLsb' 6 3)) (w.extractLsb' 0 5)) ∧
  ∀ (s : State) (dr sr1 : Reg) (imm5 : BitVec 5), ∃ t, exec (.andImm dr sr1 imm5) s = .next t ∧
    WritesOnly dr (s.reg sr1 &&& imm5.signExtend 16) s t

/-- R124: NOT leaves `0xFFFF - x[sr]` in dr. -/
def Obligations.NotWritesTheComplement : Prop :=
  (∀ w : Word, opcodeOf w = .not →
    decode w = .not (Reg.ofBits (w.extractLsb' 9 3)) (Reg.ofBits (w.extractLsb' 6 3))) ∧
  ∀ (s : State) (dr sr : Reg), ∃ t, exec (.not dr sr) s = .next t ∧ WritesOnly dr (0xFFFF - s.reg sr) s t

/-! ### Data movement -/

/-- R132: LD loads the word at the advanced PC plus the offset. -/
def Obligations.LdLoadsThePcRelativeWord : Prop :=
  (∀ w : Word, opcodeOf w = .ld →
    decode w = .ld (Reg.ofBits (w.extractLsb' 9 3)) (w.extractLsb' 0 9)) ∧
  ∀ (s : State) (dr : Reg) (off9 : BitVec 9), ∃ t, exec (.ld dr off9) s = .next t ∧
    WritesOnly dr (s.readMem (s.pc + off9.signExtend 16)) s t

/-- R133: LDI loads through the pointer stored at the PC-relative address. -/
def Obligations.LdiLoadsThroughThePointer : Prop :=
  (∀ w : Word, opcodeOf w = .ldi →
    decode w = .ldi (Reg.ofBits (w.extractLsb' 9 3)) (w.extractLsb' 0 9)) ∧
  ∀ (s : State) (dr : Reg) (off9 : BitVec 9), ∃ t, exec (.ldi dr off9) s = .next t ∧
    WritesOnly dr (s.readMem (s.readMem (s.pc + off9.signExtend 16))) s t

/-- R134: LDR loads from base plus offset; the base is read before dr is written, so dr may be the base. -/
def Obligations.LdrLoadsFromBasePlusOffset : Prop :=
  (∀ w : Word, opcodeOf w = .ldr →
    decode w = .ldr (Reg.ofBits (w.extractLsb' 9 3)) (Reg.ofBits (w.extractLsb' 6 3)) (w.extractLsb' 0 6)) ∧
  ∀ (s : State) (dr base : Reg) (off6 : BitVec 6), ∃ t, exec (.ldr dr base off6) s = .next t ∧
    WritesOnly dr (s.readMem (s.reg base + off6.signExtend 16)) s t

/-- R135: LEA writes the address itself, makes no data access (its result does not depend on memory), and sets
the flags. -/
def Obligations.LeaWritesTheAddressAndFlags : Prop :=
  (∀ w : Word, opcodeOf w = .lea →
    decode w = .lea (Reg.ofBits (w.extractLsb' 9 3)) (w.extractLsb' 0 9)) ∧
  ∀ (s : State) (dr : Reg) (off9 : BitVec 9), ∃ t, exec (.lea dr off9) s = .next t ∧
    WritesOnly dr (s.pc + off9.signExtend 16) s t

/-- R136: ST stores the register at the PC-relative address; no register and no flag changes. -/
def Obligations.StStoresAtThePcRelativeAddress : Prop :=
  (∀ w : Word, opcodeOf w = .st →
    decode w = .st (Reg.ofBits (w.extractLsb' 9 3)) (w.extractLsb' 0 9)) ∧
  ∀ (s : State) (sr : Reg) (off9 : BitVec 9), ∃ t, exec (.st sr off9) s = .next t ∧
    StoresOnly (s.pc + off9.signExtend 16) (s.reg sr) s t

/-- R137: STI stores the register through the pointer read before the write; if the pointer cell is its own target
it is overwritten. -/
def Obligations.StiStoresThroughThePointer : Prop :=
  (∀ w : Word, opcodeOf w = .sti →
    decode w = .sti (Reg.ofBits (w.extractLsb' 9 3)) (w.extractLsb' 0 9)) ∧
  ∀ (s : State) (sr : Reg) (off9 : BitVec 9), ∃ t, exec (.sti sr off9) s = .next t ∧
    StoresOnly (s.readMem (s.pc + off9.signExtend 16)) (s.reg sr) s t

/-- R138: STR stores the register at base plus offset. -/
def Obligations.StrStoresAtBasePlusOffset : Prop :=
  (∀ w : Word, opcodeOf w = .str →
    decode w = .str (Reg.ofBits (w.extractLsb' 9 3)) (Reg.ofBits (w.extractLsb' 6 3)) (w.extractLsb' 0 6)) ∧
  ∀ (s : State) (sr base : Reg) (off6 : BitVec 6), ∃ t, exec (.str sr base off6) s = .next t ∧
    StoresOnly (s.reg base + off6.signExtend 16) (s.reg sr) s t

/-! ### Control transfer -/

/-- For COND one of 4, 2, 1 (R151, R152) BR is taken iff a condition bit is set whose flag COND is; taken, PC moves by
the offset, else it stays the advanced PC. With COND = 0, the reset value, no BR is taken: that case is conflict C1
and spec decision D19 (log entry 18). -/
def Obligations.BrIsTakenIffItsConditionHolds : Prop :=
  (∀ w : Word, opcodeOf w = .br →
    decode w = .br (w.getLsbD 11) (w.getLsbD 10) (w.getLsbD 9) (w.extractLsb' 0 9)) ∧
  ∀ (s : State) (n z p : Bool) (off9 : BitVec 9), CondReachable s.cond →
    ∃ t, exec (.br n z p off9) s = .next t ∧
      (((n = true ∧ s.cond = 4) ∨ (z = true ∧ s.cond = 2) ∨ (p = true ∧ s.cond = 1)) →
        TransfersOnly [] (s.pc + off9.signExtend 16) s t) ∧
      (¬ ((n = true ∧ s.cond = 4) ∨ (z = true ∧ s.cond = 2) ∨ (p = true ∧ s.cond = 1)) →
        TransfersOnly [] s.pc s t)

/-- Spec decision D19 (log entry 18), the model's choice for a COND only the host can write: a BR is not taken when
COND is none of 1, 2, 4, whatever its bits. -/
def Obligations.BrIsNotTakenOutsideTheThreePatterns : Prop :=
  ∀ (s : State) (n z p : Bool) (off9 : BitVec 9), s.cond ≠ 1 → s.cond ≠ 2 → s.cond ≠ 4 →
    ∃ t, exec (.br n z p off9) s = .next t ∧ TransfersOnly [] s.pc s t

/-- R153: JMP moves PC to the contents of its base register and writes no register. -/
def Obligations.JmpGoesToTheBaseRegister : Prop :=
  (∀ w : Word, opcodeOf w = .jmp → decode w = .jmp (Reg.ofBits (w.extractLsb' 6 3))) ∧
  ∀ (s : State) (base : Reg), ∃ t, exec (.jmp base) s = .next t ∧ TransfersOnly [] (s.reg base) s t

/-- R154: JSR leaves the advanced PC in R7 and moves PC by the 11-bit offset from it. -/
def Obligations.JsrLinksAndJumpsPcRelative : Prop :=
  (∀ w : Word, opcodeOf w = .jsr → w.getLsbD 11 = true → decode w = .jsr (w.extractLsb' 0 11)) ∧
  ∀ (s : State) (off11 : BitVec 11), ∃ t, exec (.jsr off11) s = .next t ∧ t.reg .r7 = s.pc ∧
    TransfersOnly [.r7] (s.pc + off11.signExtend 16) s t

/-- JSRR leaves the advanced PC in R7 and goes to its base register. For base = R7 the base is read after the link
was written: the model follows spec decision D3 (log entry 5), so that `JSRR R7` continues at the return address. -/
def Obligations.JsrrLinksThenJumpsToTheBase : Prop :=
  (∀ w : Word, opcodeOf w = .jsr → w.getLsbD 11 = false → decode w = .jsrr (Reg.ofBits (w.extractLsb' 6 3))) ∧
  ∀ (s : State) (base : Reg), ∃ t, exec (.jsrr base) s = .next t ∧ t.reg .r7 = s.pc ∧
    TransfersOnly [.r7] (if base = .r7 then s.pc else s.reg base) s t

/-- R156: after JSR, JSRR (and TRAP, "the same way") R7 is the address of the instruction plus 1, whatever the
addressing mode and the base register. -/
def Obligations.CallsLeaveTheReturnAddressInR7 : Prop :=
  ∀ s t : State, s.running = true → step s = .next t →
    ((∃ off11, decode (s.readMem s.pc) = .jsr off11) ∨ (∃ base, decode (s.readMem s.pc) = .jsrr base) ∨
      (∃ v, decode (s.readMem s.pc) = .trap v)) →
    t.reg .r7 = s.pc + 1

/-! ### TRAP and its services, RTI, RES -/

/-- GETC: one byte of INPUT goes to R0, without echo and without a flag update. The low byte is the source's;
that bits 15:8 are cleared is spec decision D9 (log entry 9). -/
def Obligations.TrapGetcReadsOneByteIntoR0 : Prop :=
  ∀ (s : State) (c : Byte) (rest : List Byte), s.input = c :: rest →
    ∃ t, exec (.trap 0x20) s = .next t ∧ t.reg .r0 = c.setWidth 16 ∧ t.input = rest ∧ t.output = s.output ∧
      TrapLinksOnly [.r0] s t ∧ t.halt = s.halt ∧ t.fault = s.fault ∧ t.events = s.events

/-- R169: OUT writes the low byte of R0 to OUTPUT; R0 is unchanged. -/
def Obligations.TrapOutWritesTheLowByteOfR0 : Prop :=
  ∀ s : State, ∃ t, exec (.trap 0x21) s = .next t ∧ t.output = s.output ++ [(s.reg .r0).extractLsb' 0 8] ∧
    TrapLinksOnly [] s t ∧ t.halt = s.halt ∧ t.fault = s.fault ∧ t.input = s.input ∧ t.events = s.events

/-- PUTS: if the first zero word from R0 on is the `k`-th, OUTPUT gains one byte for each of the `k` words before
it. That the byte is the low byte of the word is spec decision D10 (log entry 10). -/
def Obligations.TrapPutsWritesUpToTheFirstZeroWord : Prop :=
  ∀ (s : State) (k : Nat), k < 65536 →
    (∀ j, j < k → s.readMem (s.reg .r0 + BitVec.ofNat 16 j) ≠ 0) →
    s.readMem (s.reg .r0 + BitVec.ofNat 16 k) = 0 →
    ∃ t, exec (.trap 0x22) s = .next t ∧
      t.output = s.output ++
        (List.range k).map (fun j => (s.readMem (s.reg .r0 + BitVec.ofNat 16 j)).extractLsb' 0 8) ∧
      TrapLinksOnly [] s t ∧ t.halt = s.halt ∧ t.fault = s.fault ∧ t.input = s.input ∧ t.events = s.events

/-- IN: the prompt, then the byte read, go to OUTPUT, and the byte to R0 as with GETC. The order is spec decision
D11 (log entry 11), the cleared bits 15:8 are D9 (log entry 9); it holds whatever bytes the prompt has. -/
def Obligations.TrapInPromptsReadsAndEchoes : Prop :=
  ∀ (s : State) (c : Byte) (rest : List Byte), s.input = c :: rest →
    ∃ t, exec (.trap 0x23) s = .next t ∧ t.reg .r0 = c.setWidth 16 ∧ t.input = rest ∧
      t.output = s.output ++ Config.inPrompt ++ [c] ∧
      TrapLinksOnly [.r0] s t ∧ t.halt = s.halt ∧ t.fault = s.fault ∧ t.events = s.events

/-- R172: PUTSP: if the first zero byte of the packed string at R0 (low byte of each word first, then its high
byte) is the `m`-th, OUTPUT gains exactly the `m` bytes before it. -/
def Obligations.TrapPutspWritesUpToTheFirstZeroByte : Prop :=
  ∀ (s : State) (m : Nat), m < 131072 →
    (∀ j, j < m → s.packedByte (s.reg .r0) j ≠ 0) →
    s.packedByte (s.reg .r0) m = 0 →
    ∃ t, exec (.trap 0x24) s = .next t ∧
      t.output = s.output ++ (List.range m).map (s.packedByte (s.reg .r0)) ∧
      TrapLinksOnly [] s t ∧ t.halt = s.halt ∧ t.fault = s.fault ∧ t.input = s.input ∧ t.events = s.events

/-- HALT sets the halt flag and prints nothing (R173). That "no further instructions execute" means that a step of
the halted machine changes nothing is spec decision D4 (log entry 6). -/
def Obligations.TrapHaltSetsTheHaltFlag : Prop :=
  ∀ s : State, ∃ t, exec (.trap 0x25) s = .next t ∧ t.halt = true ∧ TrapLinksOnly [] s t ∧
    t.fault = s.fault ∧ t.input = s.input ∧ t.output = s.output ∧ t.events = s.events ∧ step t = .next t

/-- A TRAP whose vector is outside 0x20..0x25 sets the fault marker, with R7 written and everything else unchanged.
The state at the fault is spec decision D8 (log entry 8). -/
def Obligations.TrapUnsupportedVectorSetsTheFaultMarker : Prop :=
  ∀ (s : State) (v : Byte), v.toNat < 0x20 ∨ 0x25 < v.toNat →
    ∃ t, exec (.trap v) s = .next t ∧ t.fault = some (.unsupportedTrapVector v) ∧ TrapLinksOnly [] s t ∧
      t.halt = s.halt ∧ t.input = s.input ∧ t.output = s.output ∧ t.events = s.events

/-- R165: bits 7:0 of a TRAP word are its vector; and whatever the vector, a TRAP that answers a next state, the
fatal one included, has written the return address to R7 and left PC, COND and memory alone. -/
def Obligations.TrapWritesTheLinkForEveryVector : Prop :=
  (∀ w : Word, opcodeOf w = .trap → decode w = .trap (w.extractLsb' 0 8)) ∧
  ∀ (v : Byte) (s t : State), exec (.trap v) s = .next t →
    t.reg .r7 = s.pc ∧ t.pc = s.pc ∧ t.cond = s.cond ∧ MemSame s t

/-- With INPUT empty GETC and IN have no next state, and only then; the same for PUTS with no zero word and PUTSP
with no zero byte in memory (spec decisions D12 and D18, log entries 12 and 17). -/
def Obligations.TrapServicesStopOnlyWithoutInputOrTerminator : Prop :=
  ∀ s : State,
    (exec (.trap 0x20) s = .fault .consoleInputEmpty ↔ s.input = []) ∧
    (exec (.trap 0x23) s = .fault .consoleInputEmpty ↔ s.input = []) ∧
    (exec (.trap 0x22) s = .fault .stringUnterminated ↔ ∀ a : Word, s.readMem a ≠ 0) ∧
    (exec (.trap 0x24) s = .fault .stringUnterminated ↔
      ∀ a : Word, (s.readMem a).extractLsb' 0 8 ≠ 0#8 ∧ (s.readMem a).extractLsb' 8 8 ≠ 0#8)

/-- R177: a TRAP reads and writes none of R1 to R6: running it with another value in one of them gives the same
outcome, with that value still there. -/
def Obligations.TrapNeitherReadsNorWritesR1ToR6 : Prop :=
  ∀ (v : Byte) (s : State) (r : Reg) (x : Word), r ≠ .r0 → r ≠ .r7 →
    exec (.trap v) (s.setReg r x) = mapNext (fun t => t.setReg r x) (exec (.trap v) s)

/-- RTI and RES change no register, memory word or flag; their one trace is the diagnostic (R175, R176). That the
diagnostic is one event at the end of the record is spec decision D14 (log entry 13). -/
def Obligations.RtiAndResAreNoOpsWithADiagnostic : Prop :=
  (∀ w : Word, opcodeOf w = .rti → decode w = .rti) ∧ (∀ w : Word, opcodeOf w = .res → decode w = .res) ∧
  ∀ s : State,
    (∃ t, exec .rti s = .next t ∧ t.events = s.events ++ [.unimplemented .rti] ∧
      TransfersOnly [] s.pc { s with events := t.events } t) ∧
    (∃ t, exec .res s = .next t ∧ t.events = s.events ++ [.unimplemented .res] ∧
      TransfersOnly [] s.pc { s with events := t.events } t)

/-! ### Rules over all instructions -/

/-- R27: COND is written by exactly the seven flag-setting instructions, which leave it classifying the new value
of their destination; every other instruction leaves it unchanged; and only BR reads it: for any other
instruction another COND gives the same outcome in everything but COND. -/
def Obligations.CondIsWrittenByTheSevenAndReadByBr : Prop :=
  (∀ (i : Instr) (s t : State), exec i s = .next t →
    (∀ dr, flagDest i = some dr → CondClassifies t.cond (t.reg dr)) ∧ (flagDest i = none → t.cond = s.cond)) ∧
  ∀ (i : Instr) (s : State) (c : Word), (∀ n z p off9, i ≠ .br n z p off9) →
    exec i (s.setCond c) =
      mapNext (fun t => if (flagDest i).isSome then t else t.setCond c) (exec i s)

/-- R34: an instruction changes no general register but those its rule names, no memory word but the one at the
address it stores to, COND only if it sets flags, the halt flag only if it is TRAP 0x25, the fault marker only if it
is a TRAP with an unsupported vector, and the console streams only if it is a TRAP. (RTI and RES add their observer
event.) -/
def Obligations.NothingChangesButWhatTheRuleNames : Prop :=
  ∀ (i : Instr) (s t : State), exec i s = .next t →
    RegsSameBut (regsWritten i) s t ∧
    (∀ b : Word, storeAddress i s ≠ some b → t.readMem b = s.readMem b) ∧
    (flagDest i = none → t.cond = s.cond) ∧
    (i ≠ .trap 0x25 → t.halt = s.halt) ∧
    ((∀ v : Byte, v.toNat < 0x20 ∨ 0x25 < v.toNat → i ≠ .trap v) → t.fault = s.fault) ∧
    ((∀ v : Byte, i ≠ .trap v) → t.input = s.input ∧ t.output = s.output) ∧
    (i ≠ .rti → i ≠ .res → t.events = s.events)

/-- The PC at the end of a step, for every instruction, as the table of R23 has it. Its JSRR row reads the base after
R7 was written, so here from the state after the step; for base = R7 that is spec decision D3 (log entry 5). Its BR
row has the condition of R151 for every COND; for 0 (conflict C1) and the values only the host can write that is spec
decision D19 (log entry 18). -/
def Obligations.PcAtTheEndOfAStepIsAsTheTableSays : Prop :=
  ∀ s t : State, s.running = true → step s = .next t →
    match decode (s.readMem s.pc) with
    | .br n z p off9 =>
      t.pc = if (n && s.cond == 4) || (z && s.cond == 2) || (p && s.cond == 1)
        then s.pc + 1 + off9.signExtend 16 else s.pc + 1
    | .jmp base => t.pc = s.reg base
    | .jsr off11 => t.pc = s.pc + 1 + off11.signExtend 16
    | .jsrr base => t.pc = t.reg base ∧ (base ≠ .r7 → t.pc = s.reg base)
    | .addReg _ _ _ | .addImm _ _ _ | .andReg _ _ _ | .andImm _ _ _ | .not _ _ | .ld _ _ | .ldi _ _ | .ldr _ _ _
    | .lea _ _ | .st _ _ | .sti _ _ | .str _ _ _ | .trap _ | .rti | .res => t.pc = s.pc + 1

/-! ### The step -/

/-- A running machine fetches the word at PC, advances PC by 1 with wraparound before anything else, and does what the
decoded instruction's meaning says in that state (R101 to R104). That the fetch adds one event to the record is spec
decision D14 (log entry 13). -/
def Obligations.StepFetchesAdvancesAndExecutes : Prop :=
  ∀ s : State, s.halt = false → s.fault = none →
    ∃ s1 : State, step s = exec (decode (s.readMem s.pc)) s1 ∧ s1.pc = s.pc + 1 ∧
      s1.events = s.events ++ [.fetch s.pc (s.readMem s.pc)] ∧
      (∀ r, s1.reg r = s.reg r) ∧ s1.cond = s.cond ∧ s1.mem = s.mem ∧ s1.halt = s.halt ∧ s1.fault = s.fault ∧
      s1.input = s.input ∧ s1.output = s.output

/-- A halted or faulted machine's step changes nothing (spec decision D4, log entry 6). -/
def Obligations.StoppedMachineStepsToItself : Prop :=
  ∀ s : State, s.halt = true ∨ s.fault ≠ none → step s = .next s

/-- The outcomes of a step of a running machine: never a refusal; no next state exactly when a service waits for
input or scans for a terminator that is nowhere (spec decisions D12, D18; log entries 12, 17); the halt flag is
set exactly by TRAP 0x25; the fault marker is set exactly by a TRAP with an unsupported vector, and records it
(D8, log entry 8). -/
def Obligations.StepOutcomesAreExactlyAsListed : Prop :=
  ∀ s : State, s.running = true →
    (∀ r, step s ≠ .refused r) ∧
    (step s = .fault .consoleInputEmpty ↔
      (decode (s.readMem s.pc) = .trap 0x20 ∨ decode (s.readMem s.pc) = .trap 0x23) ∧ s.input = []) ∧
    (step s = .fault .stringUnterminated ↔
      (decode (s.readMem s.pc) = .trap 0x22 ∧ ∀ a : Word, s.readMem a ≠ 0) ∨
      (decode (s.readMem s.pc) = .trap 0x24 ∧
        ∀ a : Word, (s.readMem a).extractLsb' 0 8 ≠ 0#8 ∧ (s.readMem a).extractLsb' 8 8 ≠ 0#8)) ∧
    ∀ t, step s = .next t →
      (t.halt = true ↔ decode (s.readMem s.pc) = .trap 0x25) ∧
      (∀ e, t.fault = some e ↔
        ∃ v : Byte, (v.toNat < 0x20 ∨ 0x25 < v.toNat) ∧ decode (s.readMem s.pc) = .trap v ∧
          e = .unsupportedTrapVector v)

/-- R62: a store is seen by the very next fetch: after ST, STI or STR to the address the step leaves in PC, the next
step fetches the word just stored and executes what it decodes to. -/
def Obligations.StoredWordIsFetchedByTheNextStep : Prop :=
  ∀ (s : State) (i : Instr) (sr : Reg), s.running = true → decode (s.readMem s.pc) = i →
    ((∃ off9, i = .st sr off9) ∨ (∃ off9, i = .sti sr off9) ∨ (∃ base off6, i = .str sr base off6)) →
    storeAddress i s.afterFetch = some (s.pc + 1) →
    ∃ t, step s = .next t ∧ t.running = true ∧ t.fetchWord = s.reg sr ∧
      step t = exec (decode (s.reg sr)) t.afterFetch

/-- The observer's events and the console output do not influence a step (R112, spec decision D14, log entry 13):
with a longer past the step has the same outcome behind that past. -/
def Obligations.PastEventsAndOutputDoNotInfluenceAStep : Prop :=
  ∀ (es : List ObserverEvent) (bs : List Byte) (s : State),
    step (s.withPast es bs) = mapNext (State.withPast es bs) (step s)

/-! ### The invariant -/

/-- From every state that meets the invariant (memory canonical, COND one of 0, 1, 2, 4, fault marker one the
machine can set) a step leads to one that meets it. -/
def Obligations.StepKeepsTheInvariant : Prop :=
  ∀ s t : State, s.Inv → step s = .next t → t.Inv

/-- The reset state meets the invariant. -/
def Obligations.ResetMeetsTheInvariant : Prop :=
  State.reset.Inv

/-- Every event at the ports keeps the invariant, but for a host write of COND (register-file index 9) with another
value, which R39 lets the host make. Reset and init on a machine that has run are spec decision D20 (log
entry 19). -/
def Obligations.PortEventsKeepTheInvariant : Prop :=
  ∀ (e : PortEvent) (s t : State), s.Inv → (∀ v, e = .writeReg 9 v → CondReachable v) →
    port e s = .next t → t.Inv

/-! ### Reset, init, the host's ports -/

/-- The state after reset (R35); that the fault marker is none is spec decision D8 (log entry 8). (That the console
streams and the event record are empty is the model's choice, log entries 12 and 13, and not part of this
statement.) -/
def Obligations.ResetLeavesEverythingZeroAndHalted : Prop :=
  (∀ r, State.reset.reg r = 0) ∧ State.reset.pc = 0 ∧ State.reset.cond = 0 ∧
    (∀ a, State.reset.readMem a = 0) ∧ State.reset.halt = true ∧ State.reset.fault = none

/-- The `reset` event on any machine, one that has run included, leaves what `State.reset` holds (R35, R215); it is the
one event that clears a fault marker (R33). That it may come at any time is spec decision D20, that it leaves the
console streams and the event record alone is the model's reading of R32 (both log entry 19). -/
def Obligations.ResetEventClearsAnyMachine : Prop :=
  ∀ s : State, ∃ t, port .reset s = .next t ∧
    (∀ r, t.reg r = 0) ∧ t.pc = 0 ∧ t.cond = 0 ∧ (∀ a, t.readMem a = 0) ∧ t.halt = true ∧ t.fault = none ∧
    t.input = s.input ∧ t.output = s.output ∧ t.events = s.events

/-- `init` clears the halt flag and sets PC to 0x3000 (R36), `force_halt` sets the halt flag (R37); neither changes
anything else. That `init` may be applied to any machine, one that has run included, and keeps a set fault marker is
spec decision D20 (log entry 19). -/
def Obligations.InitAndForceHaltChangeOnlyTheirFields : Prop :=
  ∀ s : State,
    (∃ t, port .init s = .next t ∧ t.halt = false ∧ TransfersOnly [] 0x3000 { s with halt := false } t) ∧
    (∃ t, port .forceHalt s = .next t ∧ t.halt = true ∧ TransfersOnly [] s.pc { s with halt := true } t)

/-- The host register port: indices 0 to 7 are R0 to R7 (R20), 8 is PC and 9 is COND (spec decision D5, log entry 7);
every one of the ten can be written, reads back as written and leaves the other nine as they were; any other index is
refused (R28). -/
def Obligations.HostRegisterPortHasTenRegisters : Prop :=
  ∀ s : State,
    (s.hostReadReg 0 = .ok (s.reg .r0) ∧ s.hostReadReg 1 = .ok (s.reg .r1) ∧ s.hostReadReg 2 = .ok (s.reg .r2) ∧
      s.hostReadReg 3 = .ok (s.reg .r3) ∧ s.hostReadReg 4 = .ok (s.reg .r4) ∧ s.hostReadReg 5 = .ok (s.reg .r5) ∧
      s.hostReadReg 6 = .ok (s.reg .r6) ∧ s.hostReadReg 7 = .ok (s.reg .r7) ∧
      s.hostReadReg 8 = .ok s.pc ∧ s.hostReadReg 9 = .ok s.cond) ∧
    ∀ (i : Nat) (v : Word),
      (i < 10 → ∃ t, s.hostWriteReg i v = .next t ∧ t.hostReadReg i = .ok v ∧
        (∀ j, j < 10 → j ≠ i → t.hostReadReg j = s.hostReadReg j) ∧ MemSame s t ∧ QuietSame s t) ∧
      (10 ≤ i → s.hostWriteReg i v = .refused (.registerIndexOutOfRange i) ∧
        s.hostReadReg i = .error (.registerIndexOutOfRange i))

/-- R217: the launch state of a program: the image from 0x3000 upward, 0 everywhere else, PC at 0x3000, running,
every register and COND zero. -/
def Obligations.LaunchStateHoldsTheImage : Prop :=
  ∀ image : List Word, image.length ≤ 65536 →
    (State.launch image).pc = 0x3000 ∧ (State.launch image).running = true ∧
    (∀ r, (State.launch image).reg r = 0) ∧ (State.launch image).cond = 0 ∧
    (∀ k (h : k < image.length), (State.launch image).readMem (0x3000 + BitVec.ofNat 16 k) = image[k]) ∧
    (∀ k, image.length ≤ k → k < 65536 → (State.launch image).readMem (0x3000 + BitVec.ofNat 16 k) = 0)

/-! ### A run and its end -/

/-- R110: a run ends normally by a step of TRAP 0x25 or by `force_halt`, and by nothing else. Ended by TRAP 0x25 at
address h, PC and R7 are h + 1 and every other register, every memory word, COND and the streams are what the program
left; ended by `force_halt`, everything but the halt flag is. (What makes a run up is log entry 26.) -/
def Obligations.ARunEndsNormallyOnlyByHaltOrForceHalt : Prop :=
  ∀ (s t : State) (past : List PortEvent), EndsNormally s past t →
    ∃ (e : PortEvent) (rest : List PortEvent) (u : State),
      past = e :: rest ∧ Run s rest u ∧ u.running = true ∧ t.fault = none ∧
      ((e = .step ∧ decode (u.readMem u.pc) = .trap 0x25 ∧ t.pc = u.pc + 1 ∧ t.reg .r7 = u.pc + 1 ∧
          RegsSameBut [.r7] u t ∧ t.cond = u.cond ∧ MemSame u t ∧ t.input = u.input ∧ t.output = u.output) ∨
        (e = .forceHalt ∧ TransfersOnly [] u.pc { u with halt := true } t))

/-- R110 the other way: a running machine that a run has come to ends that run normally by a step whose word at PC is
TRAP 0x25, and by `force_halt` (R37). (What makes a run up is log entry 26.) -/
def Obligations.HaltAndForceHaltEndTheRun : Prop :=
  ∀ (s u : State) (past : List PortEvent), Run s past u → u.running = true →
    (decode (u.readMem u.pc) = .trap 0x25 → ∃ t, EndsNormally s (.step :: past) t) ∧
    EndsNormally s (.forceHalt :: past) { u with halt := true }

/-- R33 (spec decision D8, log entry 8): no event but reset clears or changes a set fault marker; and a run of a
machine that had it set, or in which it was set, has no normal end (R110). -/
def Obligations.AFaultedMachineHasNoNormalEnd : Prop :=
  (∀ (e : PortEvent) (s t : State), e ≠ .reset → s.fault ≠ none → port e s = .next t → t.fault = s.fault) ∧
  ∀ (s u t : State) (past later : List PortEvent), Run s past u → u.fault ≠ none →
    ¬ EndsNormally s (later ++ past) t

/-- R109, R110: started after `init`, the driver's loop reports a normal end in `t` within its calls exactly if the
run of steps alone ends normally in `t` within that many steps. (That the loop stops at a set fault marker is log
entry 26.) -/
def Obligations.TheDriverLoopFindsTheNormalEnd : Prop :=
  ∀ (s t : State) (calls : Nat),
    driverLoop calls s.applyInit = .normal t ↔ ∃ k, k ≤ calls ∧ EndsNormally s (List.replicate k .step) t
end

