-- ==== Sys2Proof/Laws/Decode.lean ====
section
/-! SUPPORT. The small lemmas of the decoder: register and opcode numbers round-trip, and the decoder sees a word
through its opcode, its mode bits and its fields. -/

namespace Sys2Proof

@[simp] theorem Reg.ofBits_bits (r : Reg) : Reg.ofBits r.bits = r := by cases r <;> rfl

@[simp] theorem Reg.bits_ofBits (b : BitVec 3) : (Reg.ofBits b).bits = b := by
  revert b
  decide

@[simp] theorem Opcode.ofBits_bits (o : Opcode) : Opcode.ofBits o.bits = o := by cases o <;> rfl

@[simp] theorem Opcode.bits_ofBits (b : BitVec 4) : (Opcode.ofBits b).bits = b := by
  revert b
  decide

/-- R71: the opcode is the top four bits. -/
theorem opcodeOf_eq_iff (w : Word) (o : Opcode) : opcodeOf w = o ↔ field 12 4 w = o.bits := by
  constructor
  · rintro rfl
    exact (Opcode.bits_ofBits _).symm
  · intro h
    simp [opcodeOf, h]

/-- Bit `j` of the field that starts at bit `lo` is bit `lo + j` of the word. -/
theorem field_getLsbD (lo n : Nat) (w : Word) (j : Nat) (hj : j < n) :
    (field lo n w).getLsbD j = w.getLsbD (lo + j) := by
  simp [field, hj]

/-- Two words that agree on the bits of a field have the same field. -/
theorem field_congr {lo n : Nat} {w w' : Word}
    (h : ∀ j, j < n → w'.getLsbD (lo + j) = w.getLsbD (lo + j)) : field lo n w' = field lo n w := by
  apply BitVec.eq_of_getLsbD_eq
  intro j hj
  rw [field_getLsbD _ _ _ _ hj, field_getLsbD _ _ _ _ hj, h j hj]

/-- R92: where the bits of a placed field stand. -/
@[simp] theorem place_getLsbD {n : Nat} (lo : Nat) (f : BitVec n) (j : Nat) (hj : j < 16) :
    (place lo f).getLsbD j = (decide (lo ≤ j) && f.getLsbD (j - lo)) := by
  unfold place
  rw [BitVec.getLsbD_shiftLeft, BitVec.getLsbD_setWidth]
  have : j - lo < 16 := by omega
  by_cases h : j < lo
  · simp [h, hj, Nat.not_le.mpr h]
  · simp [h, hj, this, Nat.not_lt.mp h]

end Sys2Proof
end

