-- ==== Sys2Proof/Laws/State.lean ====
section
/-! SUPPORT. One lemma per field per update of the state, true by `rfl`, so that no later proof unfolds a record
update; then what each update does to a register read and to a memory read. -/

namespace Sys2Proof.Machine

/-! ### setReg -/

@[simp] theorem State.regs_setReg (s : State) (r : Reg) (v : Word) : (s.setReg r v).regs = s.regs.set r v := rfl
@[simp] theorem State.pc_setReg (s : State) (r : Reg) (v : Word) : (s.setReg r v).pc = s.pc := rfl
@[simp] theorem State.cond_setReg (s : State) (r : Reg) (v : Word) : (s.setReg r v).cond = s.cond := rfl
@[simp] theorem State.mem_setReg (s : State) (r : Reg) (v : Word) : (s.setReg r v).mem = s.mem := rfl
@[simp] theorem State.halt_setReg (s : State) (r : Reg) (v : Word) : (s.setReg r v).halt = s.halt := rfl
@[simp] theorem State.fault_setReg (s : State) (r : Reg) (v : Word) : (s.setReg r v).fault = s.fault := rfl
@[simp] theorem State.input_setReg (s : State) (r : Reg) (v : Word) : (s.setReg r v).input = s.input := rfl
@[simp] theorem State.output_setReg (s : State) (r : Reg) (v : Word) : (s.setReg r v).output = s.output := rfl
@[simp] theorem State.events_setReg (s : State) (r : Reg) (v : Word) : (s.setReg r v).events = s.events := rfl

/-! ### setPc -/

@[simp] theorem State.regs_setPc (s : State) (v : Word) : (s.setPc v).regs = s.regs := rfl
@[simp] theorem State.pc_setPc (s : State) (v : Word) : (s.setPc v).pc = v := rfl
@[simp] theorem State.cond_setPc (s : State) (v : Word) : (s.setPc v).cond = s.cond := rfl
@[simp] theorem State.mem_setPc (s : State) (v : Word) : (s.setPc v).mem = s.mem := rfl
@[simp] theorem State.halt_setPc (s : State) (v : Word) : (s.setPc v).halt = s.halt := rfl
@[simp] theorem State.fault_setPc (s : State) (v : Word) : (s.setPc v).fault = s.fault := rfl
@[simp] theorem State.input_setPc (s : State) (v : Word) : (s.setPc v).input = s.input := rfl
@[simp] theorem State.output_setPc (s : State) (v : Word) : (s.setPc v).output = s.output := rfl
@[simp] theorem State.events_setPc (s : State) (v : Word) : (s.setPc v).events = s.events := rfl

/-! ### setCond -/

@[simp] theorem State.regs_setCond (s : State) (v : Word) : (s.setCond v).regs = s.regs := rfl
@[simp] theorem State.pc_setCond (s : State) (v : Word) : (s.setCond v).pc = s.pc := rfl
@[simp] theorem State.cond_setCond (s : State) (v : Word) : (s.setCond v).cond = v := rfl
@[simp] theorem State.mem_setCond (s : State) (v : Word) : (s.setCond v).mem = s.mem := rfl
@[simp] theorem State.halt_setCond (s : State) (v : Word) : (s.setCond v).halt = s.halt := rfl
@[simp] theorem State.fault_setCond (s : State) (v : Word) : (s.setCond v).fault = s.fault := rfl
@[simp] theorem State.input_setCond (s : State) (v : Word) : (s.setCond v).input = s.input := rfl
@[simp] theorem State.output_setCond (s : State) (v : Word) : (s.setCond v).output = s.output := rfl
@[simp] theorem State.events_setCond (s : State) (v : Word) : (s.setCond v).events = s.events := rfl

/-! ### setHalt -/

@[simp] theorem State.regs_setHalt (s : State) (b : Bool) : (s.setHalt b).regs = s.regs := rfl
@[simp] theorem State.pc_setHalt (s : State) (b : Bool) : (s.setHalt b).pc = s.pc := rfl
@[simp] theorem State.cond_setHalt (s : State) (b : Bool) : (s.setHalt b).cond = s.cond := rfl
@[simp] theorem State.mem_setHalt (s : State) (b : Bool) : (s.setHalt b).mem = s.mem := rfl
@[simp] theorem State.halt_setHalt (s : State) (b : Bool) : (s.setHalt b).halt = b := rfl
@[simp] theorem State.fault_setHalt (s : State) (b : Bool) : (s.setHalt b).fault = s.fault := rfl
@[simp] theorem State.input_setHalt (s : State) (b : Bool) : (s.setHalt b).input = s.input := rfl
@[simp] theorem State.output_setHalt (s : State) (b : Bool) : (s.setHalt b).output = s.output := rfl
@[simp] theorem State.events_setHalt (s : State) (b : Bool) : (s.setHalt b).events = s.events := rfl

/-! ### writeMem -/

@[simp] theorem State.regs_writeMem (s : State) (a v : Word) : (s.writeMem a v).regs = s.regs := rfl
@[simp] theorem State.pc_writeMem (s : State) (a v : Word) : (s.writeMem a v).pc = s.pc := rfl
@[simp] theorem State.cond_writeMem (s : State) (a v : Word) : (s.writeMem a v).cond = s.cond := rfl
@[simp] theorem State.mem_writeMem (s : State) (a v : Word) : (s.writeMem a v).mem = s.mem.write a v := rfl
@[simp] theorem State.halt_writeMem (s : State) (a v : Word) : (s.writeMem a v).halt = s.halt := rfl
@[simp] theorem State.fault_writeMem (s : State) (a v : Word) : (s.writeMem a v).fault = s.fault := rfl
@[simp] theorem State.input_writeMem (s : State) (a v : Word) : (s.writeMem a v).input = s.input := rfl
@[simp] theorem State.output_writeMem (s : State) (a v : Word) : (s.writeMem a v).output = s.output := rfl
@[simp] theorem State.events_writeMem (s : State) (a v : Word) : (s.writeMem a v).events = s.events := rfl

/-! ### emitOut -/

@[simp] theorem State.regs_emitOut (s : State) (bs : List Byte) : (s.emitOut bs).regs = s.regs := rfl
@[simp] theorem State.pc_emitOut (s : State) (bs : List Byte) : (s.emitOut bs).pc = s.pc := rfl
@[simp] theorem State.cond_emitOut (s : State) (bs : List Byte) : (s.emitOut bs).cond = s.cond := rfl
@[simp] theorem State.mem_emitOut (s : State) (bs : List Byte) : (s.emitOut bs).mem = s.mem := rfl
@[simp] theorem State.halt_emitOut (s : State) (bs : List Byte) : (s.emitOut bs).halt = s.halt := rfl
@[simp] theorem State.fault_emitOut (s : State) (bs : List Byte) : (s.emitOut bs).fault = s.fault := rfl
@[simp] theorem State.input_emitOut (s : State) (bs : List Byte) : (s.emitOut bs).input = s.input := rfl
@[simp] theorem State.output_emitOut (s : State) (bs : List Byte) : (s.emitOut bs).output = s.output ++ bs := rfl
@[simp] theorem State.events_emitOut (s : State) (bs : List Byte) : (s.emitOut bs).events = s.events := rfl

/-! ### setInput -/

@[simp] theorem State.regs_setInput (s : State) (bs : List Byte) : (s.setInput bs).regs = s.regs := rfl
@[simp] theorem State.pc_setInput (s : State) (bs : List Byte) : (s.setInput bs).pc = s.pc := rfl
@[simp] theorem State.cond_setInput (s : State) (bs : List Byte) : (s.setInput bs).cond = s.cond := rfl
@[simp] theorem State.mem_setInput (s : State) (bs : List Byte) : (s.setInput bs).mem = s.mem := rfl
@[simp] theorem State.halt_setInput (s : State) (bs : List Byte) : (s.setInput bs).halt = s.halt := rfl
@[simp] theorem State.fault_setInput (s : State) (bs : List Byte) : (s.setInput bs).fault = s.fault := rfl
@[simp] theorem State.input_setInput (s : State) (bs : List Byte) : (s.setInput bs).input = bs := rfl
@[simp] theorem State.output_setInput (s : State) (bs : List Byte) : (s.setInput bs).output = s.output := rfl
@[simp] theorem State.events_setInput (s : State) (bs : List Byte) : (s.setInput bs).events = s.events := rfl

/-! ### emitEvent -/

@[simp] theorem State.regs_emitEvent (s : State) (e : ObserverEvent) : (s.emitEvent e).regs = s.regs := rfl
@[simp] theorem State.pc_emitEvent (s : State) (e : ObserverEvent) : (s.emitEvent e).pc = s.pc := rfl
@[simp] theorem State.cond_emitEvent (s : State) (e : ObserverEvent) : (s.emitEvent e).cond = s.cond := rfl
@[simp] theorem State.mem_emitEvent (s : State) (e : ObserverEvent) : (s.emitEvent e).mem = s.mem := rfl
@[simp] theorem State.halt_emitEvent (s : State) (e : ObserverEvent) : (s.emitEvent e).halt = s.halt := rfl
@[simp] theorem State.fault_emitEvent (s : State) (e : ObserverEvent) : (s.emitEvent e).fault = s.fault := rfl
@[simp] theorem State.input_emitEvent (s : State) (e : ObserverEvent) : (s.emitEvent e).input = s.input := rfl
@[simp] theorem State.output_emitEvent (s : State) (e : ObserverEvent) : (s.emitEvent e).output = s.output := rfl
@[simp] theorem State.events_emitEvent (s : State) (e : ObserverEvent) : (s.emitEvent e).events = s.events ++ [e] := rfl

/-! ### raiseFatal -/

@[simp] theorem State.regs_raiseFatal (s : State) (e : FatalError) : (s.raiseFatal e).regs = s.regs := rfl
@[simp] theorem State.pc_raiseFatal (s : State) (e : FatalError) : (s.raiseFatal e).pc = s.pc := rfl
@[simp] theorem State.cond_raiseFatal (s : State) (e : FatalError) : (s.raiseFatal e).cond = s.cond := rfl
@[simp] theorem State.mem_raiseFatal (s : State) (e : FatalError) : (s.raiseFatal e).mem = s.mem := rfl
@[simp] theorem State.halt_raiseFatal (s : State) (e : FatalError) : (s.raiseFatal e).halt = s.halt := rfl
@[simp] theorem State.fault_raiseFatal (s : State) (e : FatalError) : (s.raiseFatal e).fault = some e := rfl
@[simp] theorem State.input_raiseFatal (s : State) (e : FatalError) : (s.raiseFatal e).input = s.input := rfl
@[simp] theorem State.output_raiseFatal (s : State) (e : FatalError) : (s.raiseFatal e).output = s.output := rfl
@[simp] theorem State.events_raiseFatal (s : State) (e : FatalError) : (s.raiseFatal e).events = s.events := rfl

/-! ### Register reads -/

/-- R21: no aliases between registers: a read after a write gives the value written to that register, and every
other register reads as before. -/
theorem RegFile.get_set (f : RegFile) (r r' : Reg) (v : Word) :
    (f.set r v).get r' = if r' = r then v else f.get r' := by
  cases r <;> cases r' <;> rfl

/-- Two register files that read alike are equal. -/
theorem RegFile.ext_get (f g : RegFile) (h : ∀ r, f.get r = g.get r) : f = g := by
  obtain ⟨_, _, _, _, _, _, _, _⟩ := f
  obtain ⟨_, _, _, _, _, _, _, _⟩ := g
  simp only [RegFile.mk.injEq]
  exact ⟨h .r0, h .r1, h .r2, h .r3, h .r4, h .r5, h .r6, h .r7⟩

theorem State.reg_setReg (s : State) (r r' : Reg) (v : Word) :
    (s.setReg r v).reg r' = if r' = r then v else s.reg r' :=
  RegFile.get_set s.regs r r' v

@[simp] theorem State.reg_setReg_same (s : State) (r : Reg) (v : Word) : (s.setReg r v).reg r = v := by
  simp [State.reg_setReg]

@[simp] theorem State.reg_setReg_other (s : State) (r r' : Reg) (v : Word) (h : r' ≠ r) :
    (s.setReg r v).reg r' = s.reg r' := by
  simp [State.reg_setReg, h]

@[simp] theorem State.reg_setPc (s : State) (v : Word) (r : Reg) : (s.setPc v).reg r = s.reg r := rfl
@[simp] theorem State.reg_setCond (s : State) (v : Word) (r : Reg) : (s.setCond v).reg r = s.reg r := rfl
@[simp] theorem State.reg_setHalt (s : State) (b : Bool) (r : Reg) : (s.setHalt b).reg r = s.reg r := rfl
@[simp] theorem State.reg_writeMem (s : State) (a v : Word) (r : Reg) : (s.writeMem a v).reg r = s.reg r := rfl
@[simp] theorem State.reg_emitOut (s : State) (bs : List Byte) (r : Reg) : (s.emitOut bs).reg r = s.reg r := rfl
@[simp] theorem State.reg_setInput (s : State) (bs : List Byte) (r : Reg) : (s.setInput bs).reg r = s.reg r := rfl
@[simp] theorem State.reg_emitEvent (s : State) (e : ObserverEvent) (r : Reg) : (s.emitEvent e).reg r = s.reg r := rfl
@[simp] theorem State.reg_raiseFatal (s : State) (e : FatalError) (r : Reg) : (s.raiseFatal e).reg r = s.reg r := rfl

/-! ### Memory reads -/

@[simp] theorem State.readMem_setReg (s : State) (r : Reg) (v : Word) (x : Word) : (s.setReg r v).readMem x = s.readMem x := rfl
@[simp] theorem State.readMem_setPc (s : State) (v : Word) (x : Word) : (s.setPc v).readMem x = s.readMem x := rfl
@[simp] theorem State.readMem_setCond (s : State) (v : Word) (x : Word) : (s.setCond v).readMem x = s.readMem x := rfl
@[simp] theorem State.readMem_setHalt (s : State) (b : Bool) (x : Word) : (s.setHalt b).readMem x = s.readMem x := rfl
@[simp] theorem State.readMem_emitOut (s : State) (bs : List Byte) (x : Word) : (s.emitOut bs).readMem x = s.readMem x := rfl
@[simp] theorem State.readMem_setInput (s : State) (bs : List Byte) (x : Word) : (s.setInput bs).readMem x = s.readMem x := rfl
@[simp] theorem State.readMem_emitEvent (s : State) (e : ObserverEvent) (x : Word) : (s.emitEvent e).readMem x = s.readMem x := rfl
@[simp] theorem State.readMem_raiseFatal (s : State) (e : FatalError) (x : Word) : (s.raiseFatal e).readMem x = s.readMem x := rfl

/-! ### The trap link and the fetch -/

@[simp] theorem State.pc_link (s : State) : s.link.pc = s.pc := rfl
@[simp] theorem State.cond_link (s : State) : s.link.cond = s.cond := rfl
@[simp] theorem State.mem_link (s : State) : s.link.mem = s.mem := rfl
@[simp] theorem State.halt_link (s : State) : s.link.halt = s.halt := rfl
@[simp] theorem State.fault_link (s : State) : s.link.fault = s.fault := rfl
@[simp] theorem State.input_link (s : State) : s.link.input = s.input := rfl
@[simp] theorem State.output_link (s : State) : s.link.output = s.output := rfl
@[simp] theorem State.events_link (s : State) : s.link.events = s.events := rfl
@[simp] theorem State.readMem_link (s : State) (x : Word) : s.link.readMem x = s.readMem x := rfl
@[simp] theorem State.reg_link_r7 (s : State) : s.link.reg .r7 = s.pc := rfl
@[simp] theorem State.reg_link_other (s : State) (r : Reg) (h : r ≠ .r7) : s.link.reg r = s.reg r :=
  State.reg_setReg_other s .r7 r s.pc h

@[simp] theorem State.pc_afterFetch (s : State) : s.afterFetch.pc = s.pc + 1 := rfl
@[simp] theorem State.regs_afterFetch (s : State) : s.afterFetch.regs = s.regs := rfl
@[simp] theorem State.cond_afterFetch (s : State) : s.afterFetch.cond = s.cond := rfl
@[simp] theorem State.mem_afterFetch (s : State) : s.afterFetch.mem = s.mem := rfl
@[simp] theorem State.halt_afterFetch (s : State) : s.afterFetch.halt = s.halt := rfl
@[simp] theorem State.fault_afterFetch (s : State) : s.afterFetch.fault = s.fault := rfl
@[simp] theorem State.input_afterFetch (s : State) : s.afterFetch.input = s.input := rfl
@[simp] theorem State.output_afterFetch (s : State) : s.afterFetch.output = s.output := rfl
@[simp] theorem State.events_afterFetch (s : State) :
    s.afterFetch.events = s.events ++ [.fetch s.pc s.fetchWord] := rfl
@[simp] theorem State.reg_afterFetch (s : State) (r : Reg) : s.afterFetch.reg r = s.reg r := rfl
@[simp] theorem State.readMem_afterFetch (s : State) (x : Word) : s.afterFetch.readMem x = s.readMem x := rfl

end Sys2Proof.Machine
end

