-- ==== Sys2Proof/Laws/Memory.lean ====
section
/-! SUPPORT. The laws of memory: a read after a write, the frame of a write, and that every memory operation keeps
the canonical form, in which equal reads mean equal data. -/

namespace Sys2Proof.Machine

/-- The word at a numbered address: `Memory.read` without the width of the address. -/
def Memory.at (m : Memory) (n : Nat) : Word :=
  match m with
  | [] => Memory.unlisted
  | (k, v) :: m => if n = k then v else Memory.at m n

theorem Memory.read_eq_at (m : Memory) (a : Word) : m.read a = m.at a.toNat := by
  induction m with
  | nil => rfl
  | cons c m ih => simp only [Memory.read, Memory.at, ih]

theorem Memory.wf_nil : Memory.wf [] := by simp [Memory.wf]

theorem Memory.wf_cons {k : Nat} {v : Word} {m : Memory} :
    Memory.wf ((k, v) :: m) ↔
      (∀ c ∈ m, k < c.1) ∧ k < Config.memWords ∧ v ≠ Memory.unlisted ∧ Memory.wf m := by
  simp only [Memory.wf, List.pairwise_cons, List.forall_mem_cons]
  tauto

/-- Below the first listed address everything reads as unlisted. -/
theorem Memory.at_of_lt {m : Memory} {n : Nat} (h : ∀ c ∈ m, n < c.1) : m.at n = Memory.unlisted := by
  induction m with
  | nil => rfl
  | cons c m ih =>
    have hc := h c (by simp)
    have hm := ih (fun d hd => h d (by simp [hd]))
    simp only [Memory.at, hm]
    exact if_neg (by omega)

theorem Memory.at_insert (m : Memory) (a n : Nat) (v : Word) :
    (m.insert a v).at n = if n = a then v else m.at n := by
  induction m with
  | nil => simp [Memory.insert, Memory.at]
  | cons c m ih =>
    obtain ⟨k, x⟩ := c
    simp only [Memory.insert]
    split
    · simp [Memory.at]
    · split
      · subst_vars; simp only [Memory.at]; split <;> rfl
      · simp only [Memory.at, ih]
        split <;> split <;> first | rfl | omega

theorem Memory.mem_insert {m : Memory} {a : Nat} {v : Word} {c : WordCell} (h : c ∈ m.insert a v) :
    c = (a, v) ∨ c ∈ m := by
  induction m with
  | nil => simpa [Memory.insert] using h
  | cons d m ih =>
    obtain ⟨k, x⟩ := d
    simp only [Memory.insert] at h
    split at h
    · simpa using h
    · split at h
      · rcases List.mem_cons.mp h with h | h
        · exact .inl h
        · exact .inr (List.mem_cons_of_mem _ h)
      · rcases List.mem_cons.mp h with h | h
        · exact .inr (by simp [h])
        · exact (ih h).imp id (List.mem_cons_of_mem _)

theorem Memory.wf_insert {m : Memory} {a : Nat} {v : Word} (hm : m.wf) (ha : a < Config.memWords)
    (hv : v ≠ Memory.unlisted) : (m.insert a v).wf := by
  induction m with
  | nil => exact Memory.wf_cons.mpr ⟨by simp, ha, hv, Memory.wf_nil⟩
  | cons c m ih =>
    obtain ⟨k, x⟩ := c
    obtain ⟨hlt, hk, hx, hwf⟩ := Memory.wf_cons.mp hm
    simp only [Memory.insert]
    split
    · rename_i h
      refine Memory.wf_cons.mpr ⟨?_, ha, hv, hm⟩
      rintro c hc
      rcases List.mem_cons.mp hc with rfl | hc
      · exact h
      · exact lt_trans h (hlt c hc)
    · split
      · subst_vars; exact Memory.wf_cons.mpr ⟨hlt, ha, hv, hwf⟩
      · refine Memory.wf_cons.mpr ⟨?_, hk, hx, ih hwf⟩
        intro c hc
        rcases Memory.mem_insert hc with rfl | hc
        · show k < a
          omega
        · exact hlt c hc

theorem Memory.at_erase (m : Memory) (a n : Nat) :
    (m.erase a).at n = if n = a then Memory.unlisted else m.at n := by
  induction m with
  | nil => simp [Memory.erase, Memory.at]
  | cons c m ih =>
    obtain ⟨k, x⟩ := c
    unfold Memory.erase at ih ⊢
    by_cases hk : k = a
    · subst hk
      simp only [List.filter_cons, bne_self_eq_false, Bool.false_eq_true, if_false, ih, Memory.at]
      split <;> rfl
    · simp only [List.filter_cons, bne_iff_ne, ne_eq, hk, not_false_eq_true, if_true, ih, Memory.at]
      split <;> split <;> first | rfl | omega

theorem Memory.wf_erase {m : Memory} (hm : m.wf) (a : Nat) : (m.erase a).wf :=
  ⟨hm.1.filter _, fun c hc => hm.2 c (List.mem_filter.mp hc).1⟩

/-- Every write keeps the canonical form. -/
theorem Memory.wf_write {m : Memory} (hm : m.wf) (a v : Word) : (m.write a v).wf := by
  unfold Memory.write
  split
  · exact Memory.wf_erase hm _
  · exact Memory.wf_insert hm a.isLt ‹_›

/-- R7: a write replaces one word and no other, whatever the list looks like. -/
theorem Memory.read_write (m : Memory) (a b v : Word) :
    (m.write a v).read b = if b = a then v else m.read b := by
  have hab : (b.toNat = a.toNat) ↔ b = a := BitVec.toNat_inj
  simp only [Memory.read_eq_at]
  unfold Memory.write
  split
  · subst_vars
    simp only [Memory.at_erase, hab]
  · simp only [Memory.at_insert, hab]

theorem State.readMem_writeMem (s : State) (a b v : Word) :
    (s.writeMem a v).readMem b = if b = a then v else s.readMem b :=
  Memory.read_write s.mem a b v

@[simp] theorem State.readMem_writeMem_same (s : State) (a v : Word) : (s.writeMem a v).readMem a = v := by
  simp [State.readMem_writeMem]

@[simp] theorem State.readMem_writeMem_other (s : State) (a b v : Word) (h : b ≠ a) :
    (s.writeMem a v).readMem b = s.readMem b := by
  simp [State.readMem_writeMem, h]

/-- Two canonical memories that read alike at every address are equal lists. -/
theorem Memory.ext_read {m m' : Memory} (hm : m.wf) (hm' : m'.wf) (h : ∀ a : Word, m.read a = m'.read a) :
    m = m' := by
  have hat : ∀ n, m.at n = m'.at n := by
    intro n
    by_cases hn : n < 65536
    · have := h (BitVec.ofNat 16 n)
      rwa [Memory.read_eq_at, Memory.read_eq_at, BitVec.toNat_ofNat, Nat.mod_eq_of_lt hn] at this
    · have out : ∀ l : Memory, l.wf → l.at n = Memory.unlisted := by
        intro l hl
        induction l with
        | nil => rfl
        | cons c l ih =>
          obtain ⟨k, x⟩ := c
          obtain ⟨_, hk, _, hwf⟩ := Memory.wf_cons.mp hl
          simp only [Config.memWords] at hk
          simp only [Memory.at, ih hwf]
          exact if_neg (by omega)
      rw [out m hm, out m' hm']
  clear h
  induction m generalizing m' with
  | nil =>
    cases m' with
    | nil => rfl
    | cons c m' =>
      obtain ⟨k, x⟩ := c
      obtain ⟨_, _, hx, _⟩ := Memory.wf_cons.mp hm'
      have := hat k
      simp only [Memory.at, if_true] at this
      exact absurd this.symm hx
  | cons c m ih =>
    obtain ⟨k, x⟩ := c
    obtain ⟨hlt, hk, hx, hwf⟩ := Memory.wf_cons.mp hm
    cases m' with
    | nil =>
      have := hat k
      simp only [Memory.at, if_true] at this
      exact absurd this hx
    | cons c' m' =>
      obtain ⟨k', x'⟩ := c'
      obtain ⟨hlt', hk', hx', hwf'⟩ := Memory.wf_cons.mp hm'
      have h1 := hat k
      have h2 := hat k'
      simp only [Memory.at, if_true] at h1 h2
      have hkk : k = k' := by
        rcases Nat.lt_trichotomy k k' with hl | he | hg
        · rw [if_neg (by omega), Memory.at_of_lt (fun c hc => lt_trans hl (hlt' c hc))] at h1
          exact absurd h1 hx
        · exact he
        · rw [if_neg (by omega), Memory.at_of_lt (fun c hc => lt_trans hg (hlt c hc))] at h2
          exact absurd h2.symm hx'
      subst hkk
      rw [if_pos rfl] at h1
      subst h1
      congr 1
      refine ih hwf hwf' (fun n => ?_)
      have hn := hat n
      simp only [Memory.at] at hn
      by_cases he : n = k
      · subst he
        rw [Memory.at_of_lt hlt, Memory.at_of_lt hlt']
      · rwa [if_neg he, if_neg he] at hn

end Sys2Proof.Machine
end

