-- ==== Sys2Proof/Laws/Operands.lean ====
section
/-! SUPPORT. The spec lemmas of the operand forms and of the flag computation. -/

namespace Sys2Proof.Machine

/-- R3: every bit of a sign-extended field: the field's own bits, then copies of its sign bit. -/
theorem sext_getLsbD {n : Nat} (f : BitVec n) (i : Nat) (hi : i < 16) :
    (sext f).getLsbD i = if i < n then f.getLsbD i else f.msb := by
  unfold sext
  by_cases hn : i < n
  · cases hm : f.msb <;> simp [hn, hi]
  · have hz := BitVec.getLsbD_of_ge f i (by omega)
    have hs : i - n < 16 := by omega
    cases hm : f.msb
    · simp [hn, hi, hz]
    · simp only [if_true, BitVec.getLsbD_or, BitVec.getLsbD_setWidth, BitVec.getLsbD_shiftLeft,
        BitVec.getLsbD_allOnes, hz, hi, hn, hs, if_false, decide_true, decide_false]
      rfl

/-- R3 in the library's terms. -/
theorem sext_eq_signExtend {n : Nat} (f : BitVec n) : sext f = f.signExtend 16 := by
  apply BitVec.eq_of_getLsbD_eq
  intro i hi
  rw [sext_getLsbD f i hi, BitVec.getLsbD_signExtend]
  simp [hi]

/-- R26: what `condOf` classifies. -/
theorem condOf_cases (v : Word) :
    (v.toInt = 0 ∧ condOf v = condZro) ∨ (v.toInt < 0 ∧ condOf v = condNeg) ∨
      (0 < v.toInt ∧ condOf v = condPos) := by
  have hbit : v.getLsbD 15 = v.msb := (BitVec.msb_eq_getLsbD_last v).symm
  unfold condOf
  rw [hbit]
  by_cases h0 : v = 0
  · left
    subst h0
    simp
  · have hne : v.toInt ≠ 0 := fun h => h0 (BitVec.toInt_inj.mp (by simpa using h))
    rw [if_neg h0]
    cases hs : v.msb
    · have : 0 ≤ v.toInt := BitVec.toInt_nonneg_of_msb_false hs
      exact .inr (.inr ⟨by omega, rfl⟩)
    · exact .inr (.inl ⟨BitVec.toInt_neg_of_msb_true hs, rfl⟩)

/-! ### `setcc` and `writeResult`, field by field -/

@[simp] theorem State.cond_setcc (s : State) (r : Reg) : (s.setcc r).cond = condOf (s.reg r) := rfl
@[simp] theorem State.reg_setcc (s : State) (r r' : Reg) : (s.setcc r).reg r' = s.reg r' := rfl
@[simp] theorem State.pc_setcc (s : State) (r : Reg) : (s.setcc r).pc = s.pc := rfl
@[simp] theorem State.mem_setcc (s : State) (r : Reg) : (s.setcc r).mem = s.mem := rfl

@[simp] theorem State.cond_writeResult (s : State) (dr : Reg) (v : Word) :
    (s.writeResult dr v).cond = condOf v := by
  simp [State.writeResult]
theorem State.reg_writeResult (s : State) (dr r : Reg) (v : Word) :
    (s.writeResult dr v).reg r = if r = dr then v else s.reg r := by
  simp [State.writeResult, State.reg_setReg]
@[simp] theorem State.pc_writeResult (s : State) (dr : Reg) (v : Word) : (s.writeResult dr v).pc = s.pc := rfl
@[simp] theorem State.mem_writeResult (s : State) (dr : Reg) (v : Word) : (s.writeResult dr v).mem = s.mem := rfl
@[simp] theorem State.halt_writeResult (s : State) (dr : Reg) (v : Word) : (s.writeResult dr v).halt = s.halt := rfl
@[simp] theorem State.fault_writeResult (s : State) (dr : Reg) (v : Word) :
    (s.writeResult dr v).fault = s.fault := rfl
@[simp] theorem State.input_writeResult (s : State) (dr : Reg) (v : Word) :
    (s.writeResult dr v).input = s.input := rfl
@[simp] theorem State.output_writeResult (s : State) (dr : Reg) (v : Word) :
    (s.writeResult dr v).output = s.output := rfl
@[simp] theorem State.events_writeResult (s : State) (dr : Reg) (v : Word) :
    (s.writeResult dr v).events = s.events := rfl
@[simp] theorem State.readMem_writeResult (s : State) (dr : Reg) (v a : Word) :
    (s.writeResult dr v).readMem a = s.readMem a := rfl

end Sys2Proof.Machine
end

