-- ==== Sys2Proof/Laws/System.lean ====
section
/-! SUPPORT. The spec lemmas of TRAP: the two string scans, and once everything a TRAP can do. -/

namespace Sys2Proof.Machine

/-! ### Addresses counted from a start (R65) -/

theorem addr_succ (a : Word) (j : Nat) : a + 1 + BitVec.ofNat 16 j = a + BitVec.ofNat 16 (j + 1) := by
  rw [BitVec.add_assoc]
  congr 1
  apply BitVec.eq_of_toNat_eq
  simp [Nat.add_comm]

/-- Counting 65,536 words from any start meets every address. -/
theorem addr_reached (a b : Word) : ∃ j, j < 65536 ∧ b = a + BitVec.ofNat 16 j := by
  refine ⟨(b - a).toNat, (b - a).isLt, ?_⟩
  rw [BitVec.ofNat_toNat, BitVec.setWidth_eq, BitVec.add_comm, BitVec.sub_add_cancel]

/-- A property of the words from `a` on holds of every word iff it holds of the first 65,536. -/
theorem forall_addr_iff (p : Word → Prop) (a : Word) :
    (∀ j, j < 65536 → p (a + BitVec.ofNat 16 j)) ↔ ∀ b, p b := by
  refine ⟨fun h b => ?_, fun h j _ => h _⟩
  obtain ⟨j, hj, rfl⟩ := addr_reached a b
  exact h j hj

/-! ### PUTS (R170) -/

/-- The scan of PUTS gives nothing iff it meets no zero word. -/
theorem putsBytes_eq_none_iff (fuel : Nat) (m : Memory) (a : Word) :
    putsBytes fuel m a = none ↔ ∀ j, j < fuel → m.read (a + BitVec.ofNat 16 j) ≠ 0 := by
  induction fuel generalizing a with
  | zero => simp [putsBytes]
  | succ fuel ih =>
    rw [Nat.forall_lt_succ_left]
    simp only [putsBytes, BitVec.add_zero, ← addr_succ]
    by_cases hw : m.read a = 0
    · rw [if_pos hw]
      exact ⟨nofun, fun h => absurd hw h.1⟩
    · rw [if_neg hw, Option.map_eq_none_iff, ih]
      exact ⟨fun h => ⟨hw, h⟩, fun h => h.2⟩

/-- The scan of PUTS up to the `k`-th word, the first zero one. -/
theorem putsBytes_of_terminator (fuel k : Nat) (m : Memory) (a : Word) (hk : k < fuel)
    (hne : ∀ j, j < k → m.read (a + BitVec.ofNat 16 j) ≠ 0) (hz : m.read (a + BitVec.ofNat 16 k) = 0) :
    putsBytes fuel m a = some ((List.range k).map (fun j => lowByte (m.read (a + BitVec.ofNat 16 j)))) := by
  induction k generalizing fuel a with
  | zero =>
    obtain ⟨fuel, rfl⟩ := Nat.exists_eq_succ_of_ne_zero (Nat.ne_of_gt hk)
    have hz : m.read a = 0 := by simpa using hz
    simp [putsBytes, hz]
  | succ k ih =>
    obtain ⟨fuel, rfl⟩ := Nat.exists_eq_succ_of_ne_zero (Nat.ne_of_gt (Nat.zero_lt_of_lt hk))
    have h0 : m.read a ≠ 0 := by simpa using hne 0 (by omega)
    have hrest := ih fuel (a + 1) (by omega)
      (fun j hj => by simpa only [addr_succ] using hne (j + 1) (by omega))
      (by simpa only [addr_succ] using hz)
    simp only [putsBytes, if_neg h0, hrest, Option.map_some, addr_succ]
    simp [List.range_succ_eq_map, Function.comp_def]

/-! ### PUTSP (R172) -/

/-- The scan of PUTSP gives nothing iff it meets no zero byte. -/
theorem putspBytes_eq_none_iff (fuel : Nat) (m : Memory) (a : Word) :
    putspBytes fuel m a = none ↔
      ∀ j, j < fuel → lowByte (m.read (a + BitVec.ofNat 16 j)) ≠ 0 ∧
        highByte (m.read (a + BitVec.ofNat 16 j)) ≠ 0 := by
  induction fuel generalizing a with
  | zero => simp [putspBytes]
  | succ fuel ih =>
    rw [Nat.forall_lt_succ_left]
    simp only [putspBytes, BitVec.add_zero, ← addr_succ]
    by_cases hlo : lowByte (m.read a) = 0
    · rw [if_pos hlo]
      exact ⟨nofun, fun h => absurd hlo h.1.1⟩
    · by_cases hhi : highByte (m.read a) = 0
      · rw [if_neg hlo, if_pos hhi]
        exact ⟨nofun, fun h => absurd hhi h.1.2⟩
      · rw [if_neg hlo, if_neg hhi, Option.map_eq_none_iff, ih]
        exact ⟨fun h => ⟨⟨hlo, hhi⟩, h⟩, fun h => h.2⟩

/-- The scan of PUTSP up to the `n`-th byte, the first zero one, of the packed string. -/
theorem putspBytes_of_terminator (fuel n : Nat) (s : State) (a : Word) (hn : n < 2 * fuel)
    (hne : ∀ j, j < n → s.packedByte a j ≠ 0) (hz : s.packedByte a n = 0) :
    putspBytes fuel s.mem a = some ((List.range n).map (s.packedByte a)) := by
  have hlo : ∀ b : Word, s.packedByte b 0 = lowByte (s.mem.read b) := fun b => by
    simp [State.packedByte, State.readMem, lowByte]
  have hhi : ∀ b : Word, s.packedByte b 1 = highByte (s.mem.read b) := fun b => by
    simp [State.packedByte, State.readMem, highByte]
  have hshift : ∀ (b : Word) (j : Nat), s.packedByte (b + 1) j = s.packedByte b (j + 2) := fun b j => by
    simp only [State.packedByte, addr_succ, Nat.add_mod_right]
    rw [show (j + 2) / 2 = j / 2 + 1 by omega]
  induction fuel generalizing a n with
  | zero => omega
  | succ fuel ih =>
    rcases n with _ | _ | n
    · have h0 : lowByte (s.mem.read a) = 0 := by rw [← hlo]; exact hz
      simp [putspBytes, h0]
    · have h0 : lowByte (s.mem.read a) ≠ 0 := by rw [← hlo]; exact hne 0 (by omega)
      have h1 : highByte (s.mem.read a) = 0 := by rw [← hhi]; exact hz
      simp only [putspBytes, if_neg h0, if_pos h1]
      simp [List.range_succ, hlo]
    · have h0 : lowByte (s.mem.read a) ≠ 0 := by rw [← hlo]; exact hne 0 (by omega)
      have h1 : highByte (s.mem.read a) ≠ 0 := by rw [← hhi]; exact hne 1 (by omega)
      have hrest := ih n (a + 1) (by omega)
        (fun j hj => by rw [hshift]; exact hne (j + 2) (by omega)) (by rw [hshift]; exact hz)
      have hmap : s.packedByte (a + 1) = fun j => s.packedByte a (j + 2) := funext (hshift a)
      simp only [putspBytes, if_neg h0, if_neg h1, hrest, Option.map_some, hmap]
      simp [List.range_succ_eq_map, Function.comp_def, hlo, hhi]

/-! ### The dispatch on the vector (R166) -/

theorem TrapService.ofVector_eq_none_iff (v : Byte) :
    TrapService.ofVector v = none ↔ v.toNat < 0x20 ∨ 0x25 < v.toNat := by
  revert v
  decide

theorem TrapService.eq_vector_of_ofVector {v : Byte} {service : TrapService}
    (h : TrapService.ofVector v = some service) : v = service.vector := by
  unfold TrapService.ofVector at h
  split_ifs at h <;> cases h <;> assumption

/-- Everything a TRAP can lead to (R165 to R174). -/
theorem execTrap_next_cases {v : Byte} {s t : State} (h : execTrap v s = .next t) :
    (v = 0x20 ∧ ∃ c rest, s.input = c :: rest ∧ t = (s.link.setInput rest).setReg .r0 (zext8 c)) ∨
    (v = 0x23 ∧ ∃ c rest, s.input = c :: rest ∧
      t = ((s.link.emitOut (Config.inPrompt ++ [c])).setInput rest).setReg .r0 (zext8 c)) ∨
    ((v = 0x21 ∨ v = 0x22 ∨ v = 0x24) ∧ ∃ bs, t = s.link.emitOut bs) ∨
    (v = 0x25 ∧ t = s.link.setHalt true) ∨
    ((v.toNat < 0x20 ∨ 0x25 < v.toNat) ∧ t = s.link.raiseFatal (.unsupportedTrapVector v)) := by
  unfold execTrap at h
  cases hv : TrapService.ofVector v with
  | none =>
    rw [hv] at h
    simp only [Host.Outcome.next.injEq] at h
    exact .inr (.inr (.inr (.inr ⟨(TrapService.ofVector_eq_none_iff v).mp hv, h.symm⟩)))
  | some service =>
    rw [hv] at h
    have hvec := TrapService.eq_vector_of_ofVector hv
    cases service with
    | getc =>
      simp only [serviceGetc, State.input_link] at h
      split at h
      · cases h
      · cases h; exact .inl ⟨hvec, _, _, ‹_›, rfl⟩
    | in_ =>
      simp only [serviceIn, State.input_link] at h
      split at h
      · cases h
      · cases h; exact .inr (.inl ⟨hvec, _, _, ‹_›, rfl⟩)
    | out => cases h; exact .inr (.inr (.inl ⟨.inl hvec, _, rfl⟩))
    | puts =>
      simp only [servicePuts, State.emitString] at h
      split at h
      · cases h
      · cases h; exact .inr (.inr (.inl ⟨.inr (.inl hvec), _, rfl⟩))
    | putsp =>
      simp only [servicePutsp, State.emitString] at h
      split at h
      · cases h
      · cases h; exact .inr (.inr (.inl ⟨.inr (.inr hvec), _, rfl⟩))
    | halt => cases h; exact .inr (.inr (.inr (.inl ⟨hvec, rfl⟩)))

end Sys2Proof.Machine
end

