-- ==== Sys2Proof/Laws/Exec.lean ====
section
/-! SUPPORT. Once, everything an instruction and a step can do when they answer a next state. -/

namespace Sys2Proof.Machine

/-- The five shapes of an instruction's effect: a flag-setting write of one register, a store of one word, a move of
PC with or without the link, a TRAP, a diagnostic. -/
theorem exec_next_cases {i : Instr} {s t : State} (h : exec i s = .next t) :
    (∃ dr v, flagDest i = some dr ∧ regsWritten i = [dr] ∧ storeAddress i s = none ∧ isSystem i = false ∧
      t = s.writeResult dr v) ∨
    (∃ a v, flagDest i = none ∧ storeAddress i s = some a ∧ isSystem i = false ∧ t = s.writeMem a v) ∨
    (∃ target, flagDest i = none ∧ storeAddress i s = none ∧ isSystem i = false ∧
      (t = s.setPc target ∨ (regsWritten i = [.r7] ∧ t = s.link.setPc target))) ∨
    (∃ v, i = .trap v ∧ execTrap v s = .next t) ∨
    ((i = .rti ∧ t = s.emitEvent (.unimplemented .rti)) ∨ (i = .res ∧ t = s.emitEvent (.unimplemented .res))) := by
  cases i with
  | addReg dr sr1 sr2 => cases h; exact .inl ⟨dr, _, rfl, rfl, rfl, rfl, rfl⟩
  | addImm dr sr1 imm5 => cases h; exact .inl ⟨dr, _, rfl, rfl, rfl, rfl, rfl⟩
  | andReg dr sr1 sr2 => cases h; exact .inl ⟨dr, _, rfl, rfl, rfl, rfl, rfl⟩
  | andImm dr sr1 imm5 => cases h; exact .inl ⟨dr, _, rfl, rfl, rfl, rfl, rfl⟩
  | not dr sr => cases h; exact .inl ⟨dr, _, rfl, rfl, rfl, rfl, rfl⟩
  | ld dr off9 => cases h; exact .inl ⟨dr, _, rfl, rfl, rfl, rfl, rfl⟩
  | ldi dr off9 => cases h; exact .inl ⟨dr, _, rfl, rfl, rfl, rfl, rfl⟩
  | ldr dr base off6 => cases h; exact .inl ⟨dr, _, rfl, rfl, rfl, rfl, rfl⟩
  | lea dr off9 => cases h; exact .inl ⟨dr, _, rfl, rfl, rfl, rfl, rfl⟩
  | st sr off9 => cases h; exact .inr (.inl ⟨_, _, rfl, rfl, rfl, rfl⟩)
  | sti sr off9 => cases h; exact .inr (.inl ⟨_, _, rfl, rfl, rfl, rfl⟩)
  | str sr base off6 => cases h; exact .inr (.inl ⟨_, _, rfl, rfl, rfl, rfl⟩)
  | br n z p off9 =>
    simp only [exec, execBr] at h
    split at h
    · cases h; exact .inr (.inr (.inl ⟨_, rfl, rfl, rfl, .inl rfl⟩))
    · cases h; exact .inr (.inr (.inl ⟨s.pc, rfl, rfl, rfl, .inl rfl⟩))
  | jmp base => cases h; exact .inr (.inr (.inl ⟨_, rfl, rfl, rfl, .inl rfl⟩))
  | jsr off11 => cases h; exact .inr (.inr (.inl ⟨_, rfl, rfl, rfl, .inr ⟨rfl, rfl⟩⟩))
  | jsrr base => cases h; exact .inr (.inr (.inl ⟨_, rfl, rfl, rfl, .inr ⟨rfl, rfl⟩⟩))
  | trap v => exact .inr (.inr (.inr (.inl ⟨v, rfl, h⟩)))
  | rti => cases h; exact .inr (.inr (.inr (.inr (.inl ⟨rfl, rfl⟩))))
  | res => cases h; exact .inr (.inr (.inr (.inr (.inr ⟨rfl, rfl⟩))))

theorem State.running_iff (s : State) : s.running = true ↔ s.halt = false ∧ s.fault = none := by
  simp [State.running]

/-- R105: what a step that answers a next state did: nothing, on a machine that is not running, or the decoded
instruction on the state after the fetch. -/
theorem step_next_cases {s t : State} (h : step s = .next t) :
    (s.running = false ∧ t = s) ∨ (s.running = true ∧ exec (decode s.fetchWord) s.afterFetch = .next t) := by
  unfold step at h
  split at h
  · exact .inr ⟨‹_›, h⟩
  · cases h; exact .inl ⟨Bool.not_eq_true _ ▸ ‹¬ s.running = true›, rfl⟩

/-- Only the system instructions can fail to answer a next state. -/
theorem exec_answers_next {i : Instr} (s : State) (h : isSystem i = false) : ∃ t, exec i s = .next t := by
  cases i with
  | br n z p off9 =>
    simp only [exec, execBr]
    split
    · exact ⟨_, rfl⟩
    · exact ⟨_, rfl⟩
  | trap v => cases h
  | rti => cases h
  | res => cases h
  | _ => exact ⟨_, rfl⟩

end Sys2Proof.Machine
end

