-- ==== Sys2Proof/Laws/PerInstr.lean ====
section
/-! SUPPORT. Facts about every instruction as syntax, one lemma per constructor. -/

namespace Sys2Proof.Laws.EncodedInOwnRow

/-- R79, R92: the word of the instruction selects a row of the opcode table, and that row carries the instruction's
own mnemonic. -/
def Statement (i : Instr) : Prop :=
  ∃ r ∈ opcodeTable, r.mnemonic = i.mnemonic ∧ r.selects (encode i) = true

/-- A word whose bits under the mask are the row's pattern selects the row. -/
theorem selects_of_bits (r : TableRow) (w : Word)
    (h : ∀ j, j < 16 → (w.getLsbD j && r.mask.getLsbD j) = r.pattern.getLsbD j) : r.selects w = true := by
  unfold TableRow.selects
  rw [beq_iff_eq]
  apply BitVec.eq_of_getLsbD_eq
  intro j hj
  rw [BitVec.getLsbD_and]
  exact h j hj

theorem addReg (dr sr1 sr2 : Reg) : Statement (.addReg dr sr1 sr2) :=
  ⟨⟨"ADD__register", 0xF020, 0x1000⟩, by decide, rfl, selects_of_bits _ _ fun j hj => by
    interval_cases j <;> simp [encode, Opcode.bits, - BitVec.getLsbD_eq_getElem]⟩

theorem addImm (dr sr1 : Reg) (imm5 : BitVec 5) : Statement (.addImm dr sr1 imm5) :=
  ⟨⟨"ADD__immediate", 0xF020, 0x1020⟩, by decide, rfl, selects_of_bits _ _ fun j hj => by
    interval_cases j <;> simp [encode, Opcode.bits, - BitVec.getLsbD_eq_getElem]⟩

theorem andReg (dr sr1 sr2 : Reg) : Statement (.andReg dr sr1 sr2) :=
  ⟨⟨"AND__register", 0xF020, 0x5000⟩, by decide, rfl, selects_of_bits _ _ fun j hj => by
    interval_cases j <;> simp [encode, Opcode.bits, - BitVec.getLsbD_eq_getElem]⟩

theorem andImm (dr sr1 : Reg) (imm5 : BitVec 5) : Statement (.andImm dr sr1 imm5) :=
  ⟨⟨"AND__immediate", 0xF020, 0x5020⟩, by decide, rfl, selects_of_bits _ _ fun j hj => by
    interval_cases j <;> simp [encode, Opcode.bits, - BitVec.getLsbD_eq_getElem]⟩

theorem not (dr sr : Reg) : Statement (.not dr sr) :=
  ⟨⟨"NOT", 0xF000, 0x9000⟩, by decide, rfl, selects_of_bits _ _ fun j hj => by
    interval_cases j <;> simp [encode, Opcode.bits, - BitVec.getLsbD_eq_getElem]⟩

theorem br (n z p : Bool) (off9 : BitVec 9) : Statement (.br n z p off9) :=
  ⟨⟨"BR", 0xF000, 0x0000⟩, by decide, rfl, selects_of_bits _ _ fun j hj => by
    interval_cases j <;> simp [encode, Opcode.bits, - BitVec.getLsbD_eq_getElem]⟩

theorem jmp (base : Reg) : Statement (.jmp base) :=
  ⟨⟨"JMP", 0xF000, 0xC000⟩, by decide, rfl, selects_of_bits _ _ fun j hj => by
    interval_cases j <;> simp [encode, Opcode.bits, - BitVec.getLsbD_eq_getElem]⟩

theorem jsr (off11 : BitVec 11) : Statement (.jsr off11) :=
  ⟨⟨"JSR", 0xF800, 0x4800⟩, by decide, rfl, selects_of_bits _ _ fun j hj => by
    interval_cases j <;> simp [encode, Opcode.bits, - BitVec.getLsbD_eq_getElem]⟩

theorem jsrr (base : Reg) : Statement (.jsrr base) :=
  ⟨⟨"JSRR", 0xF800, 0x4000⟩, by decide, rfl, selects_of_bits _ _ fun j hj => by
    interval_cases j <;> simp [encode, Opcode.bits, - BitVec.getLsbD_eq_getElem]⟩

theorem ld (dr : Reg) (off9 : BitVec 9) : Statement (.ld dr off9) :=
  ⟨⟨"LD", 0xF000, 0x2000⟩, by decide, rfl, selects_of_bits _ _ fun j hj => by
    interval_cases j <;> simp [encode, Opcode.bits, - BitVec.getLsbD_eq_getElem]⟩

theorem ldi (dr : Reg) (off9 : BitVec 9) : Statement (.ldi dr off9) :=
  ⟨⟨"LDI", 0xF000, 0xA000⟩, by decide, rfl, selects_of_bits _ _ fun j hj => by
    interval_cases j <;> simp [encode, Opcode.bits, - BitVec.getLsbD_eq_getElem]⟩

theorem ldr (dr base : Reg) (off6 : BitVec 6) : Statement (.ldr dr base off6) :=
  ⟨⟨"LDR", 0xF000, 0x6000⟩, by decide, rfl, selects_of_bits _ _ fun j hj => by
    interval_cases j <;> simp [encode, Opcode.bits, - BitVec.getLsbD_eq_getElem]⟩

theorem lea (dr : Reg) (off9 : BitVec 9) : Statement (.lea dr off9) :=
  ⟨⟨"LEA", 0xF000, 0xE000⟩, by decide, rfl, selects_of_bits _ _ fun j hj => by
    interval_cases j <;> simp [encode, Opcode.bits, - BitVec.getLsbD_eq_getElem]⟩

theorem st (sr : Reg) (off9 : BitVec 9) : Statement (.st sr off9) :=
  ⟨⟨"ST", 0xF000, 0x3000⟩, by decide, rfl, selects_of_bits _ _ fun j hj => by
    interval_cases j <;> simp [encode, Opcode.bits, - BitVec.getLsbD_eq_getElem]⟩

theorem sti (sr : Reg) (off9 : BitVec 9) : Statement (.sti sr off9) :=
  ⟨⟨"STI", 0xF000, 0xB000⟩, by decide, rfl, selects_of_bits _ _ fun j hj => by
    interval_cases j <;> simp [encode, Opcode.bits, - BitVec.getLsbD_eq_getElem]⟩

theorem str (sr base : Reg) (off6 : BitVec 6) : Statement (.str sr base off6) :=
  ⟨⟨"STR", 0xF000, 0x7000⟩, by decide, rfl, selects_of_bits _ _ fun j hj => by
    interval_cases j <;> simp [encode, Opcode.bits, - BitVec.getLsbD_eq_getElem]⟩

theorem trap (trapvect8 : BitVec 8) : Statement (.trap trapvect8) :=
  ⟨⟨"TRAP", 0xF000, 0xF000⟩, by decide, rfl, selects_of_bits _ _ fun j hj => by
    interval_cases j <;> simp [encode, Opcode.bits, - BitVec.getLsbD_eq_getElem]⟩

theorem rti : Statement .rti :=
  ⟨⟨"RTI", 0xF000, 0x8000⟩, by decide, rfl, selects_of_bits _ _ fun j hj => by
    interval_cases j <;> simp [encode, Opcode.bits, - BitVec.getLsbD_eq_getElem]⟩

theorem res : Statement .res :=
  ⟨⟨"RES", 0xF000, 0xD000⟩, by decide, rfl, selects_of_bits _ _ fun j hj => by
    interval_cases j <;> simp [encode, Opcode.bits, - BitVec.getLsbD_eq_getElem]⟩

end Sys2Proof.Laws.EncodedInOwnRow
end

