-- ==== Sys2Proof/Laws/Run.lean ====
section
/-! SUPPORT. What the tests of a run's end say of the halt flag and the fault marker, and everything an event of a run
can do to these two. -/

namespace Sys2Proof.Machine

theorem State.haltedCleanly_iff (s : State) : s.haltedCleanly = true ↔ s.halt = true ∧ s.fault = none := by
  simp [State.haltedCleanly]

theorem State.faulted_iff (s : State) : s.faulted = true ↔ s.fault ≠ none := by
  simp [State.faulted, Option.isSome_iff_ne_none]

/-- A machine that has neither halted cleanly nor faulted is running. -/
theorem State.running_of_not_ended {s : State} (hh : s.haltedCleanly = false) (hf : s.fault = none) :
    s.running = true := by
  simpa [State.running, State.haltedCleanly, hf] using hh

@[simp] theorem State.haltedCleanly_applyInit (s : State) : s.applyInit.haltedCleanly = false := rfl
@[simp] theorem State.fault_applyInit (s : State) : s.applyInit.fault = s.fault := rfl

@[simp] theorem State.halt_loadImage (image : List Word) :
    ∀ (s : State) (a : Word), (s.loadImage a image).halt = s.halt := by
  induction image with
  | nil => exact fun _ _ => rfl
  | cons w rest ih => exact fun s a => ih (s.writeMem a w) (a + 1)

@[simp] theorem State.fault_loadImage (image : List Word) :
    ∀ (s : State) (a : Word), (s.loadImage a image).fault = s.fault := by
  induction image with
  | nil => exact fun _ _ => rfl
  | cons w rest ih => exact fun s a => ih (s.writeMem a w) (a + 1)

/-- What a host write of a register that is not refused does: it writes one general register, PC or COND. -/
theorem hostWriteReg_next_cases {s t : State} {index : Nat} {v : Word} (h : s.hostWriteReg index v = .next t) :
    (∃ r, t = s.setReg r v) ∨ t = s.setPc v ∨ t = s.setCond v := by
  unfold State.hostWriteReg at h
  split at h
  · cases h; exact .inl ⟨_, rfl⟩
  · split at h
    · cases h; exact .inr (.inl rfl)
    · split at h
      · cases h; exact .inr (.inr rfl)
      · cases h

/-- The halt flag and the fault marker after an event of a run: only a step and `force_halt` can change them. -/
theorem port_next_cases {e : PortEvent} {s t : State} (he : e.inRun = true) (h : port e s = .next t) :
    (e = .step ∧ step s = .next t) ∨ (e = .forceHalt ∧ t = s.setHalt true) ∨
    (e ≠ .step ∧ e ≠ .forceHalt ∧ t.halt = s.halt ∧ t.fault = s.fault) := by
  cases e with
  | reset => cases he
  | init => cases he
  | step => exact .inl ⟨rfl, h⟩
  | forceHalt => cases h; exact .inr (.inl ⟨rfl, rfl⟩)
  | writeReg index v =>
    rcases hostWriteReg_next_cases h with ⟨_, rfl⟩ | rfl | rfl <;> exact .inr (.inr ⟨nofun, nofun, rfl, rfl⟩)
  | writeMem a v => cases h; exact .inr (.inr ⟨nofun, nofun, rfl, rfl⟩)
  | load a image =>
    cases h; exact .inr (.inr ⟨nofun, nofun, State.halt_loadImage image s a, State.fault_loadImage image s a⟩)
  | supplyInput bytes => cases h; exact .inr (.inr ⟨nofun, nofun, rfl, rfl⟩)

/-- R110: no run ends before its first event; `init` has cleared the halt flag. -/
theorem not_endsNormally_at_init (s t : State) : ¬ EndsNormally s [] t := by
  rintro ⟨_ | _, h⟩
  cases h

end Sys2Proof.Machine
end

