-- ==== Sys2Proof/Tests/Slice0.lean ====
section
/-! SUPPORT. The model's own tests. Expected values are those of spec/95_test_vectors.md (the vector is named), of
the rules' own examples, or written out by hand from the formats of R73. Then a witness for the hypotheses of
each statement. -/

namespace Sys2Proof.Tests

open Sys2Proof.Machine

/-- The base state L0 of the vectors: reset, then `init`. -/
def base : State := State.reset.applyInit

/-- The state after one step with the word `w` at PC, if the step has a next state. -/
def after (s : State) (w : Word) : Option State :=
  match step (s.writeMem s.pc w) with
  | .next t => some t
  | .fault _ => none
  | .refused _ => none

/-! ### Well-formedness: words the customary check refuses, one for each line of R80's table -/

theorem test_customary_accepts : [0x14C4, 0x54C4, 0x92BF, 0xC0C0, 0x4080, 0xF025, 0x8000, 0xD000].all customary = true := by
  decide
theorem test_customary_refuses_add_bits_4_3 : customary 0x14DC = false := by decide
theorem test_customary_refuses_and_bits_4_3 : customary 0x54CC = false := by decide
theorem test_customary_refuses_not_bits_5_0 : customary 0x96C0 = false := by decide
theorem test_customary_refuses_jmp : customary 0xCFFF = false := by decide
theorem test_customary_refuses_jsrr : customary 0x4280 = false := by decide
theorem test_customary_refuses_trap_bits_11_8 : customary 0xFF25 = false := by decide
theorem test_customary_refuses_rti : customary 0x8FFF = false := by decide
theorem test_customary_refuses_res : customary 0xDABC = false := by decide

/-! ### Decoding: every constructor by a word written out bit by bit from its format (R73, R78) -/

theorem test_decode_addReg : decode 0b0001010011000100#16 = .addReg .r2 .r3 .r4 := by decide
theorem test_decode_addImm : decode 0b0001000001100101#16 = .addImm .r0 .r1 5 := by decide
theorem test_decode_andReg : decode 0b0101010011000100#16 = .andReg .r2 .r3 .r4 := by decide
theorem test_decode_andImm : decode 0b0101101110110000#16 = .andImm .r5 .r6 (-16) := by decide
theorem test_decode_not : decode 0b1001001010111111#16 = .not .r1 .r2 := by decide
theorem test_decode_br : decode 0b0000100111111111#16 = .br true false false (-1) := by decide
theorem test_decode_jmp : decode 0b1100000111000000#16 = .jmp .r7 := by decide
theorem test_decode_jsr : decode 0b0100110000000000#16 = .jsr (-1024) := by decide
theorem test_decode_jsrr : decode 0b0100000010000000#16 = .jsrr .r2 := by decide
theorem test_decode_ld : decode 0b0010011011111111#16 = .ld .r3 255 := by decide
theorem test_decode_ldi : decode 0b1010000000001111#16 = .ldi .r0 15 := by decide
theorem test_decode_ldr : decode 0b0110001010111111#16 = .ldr .r1 .r2 (-1) := by decide
theorem test_decode_lea : decode 0b1110100100000000#16 = .lea .r4 (-256) := by decide
theorem test_decode_st : decode 0b0011011000000101#16 = .st .r3 5 := by decide
theorem test_decode_sti : decode 0b1011011000000100#16 = .sti .r3 4 := by decide
theorem test_decode_str : decode 0b0111011100100000#16 = .str .r3 .r4 (-32) := by decide
theorem test_decode_trap : decode 0b1111000000100101#16 = .trap 0x25 := by decide
theorem test_decode_rti : decode 0b1000000000000000#16 = .rti := by decide
theorem test_decode_res : decode 0b1101000000000000#16 = .res := by decide

/-- R80's examples. -/
theorem test_decode_ignores_uncovered_bits :
    decode 0x14DC = .addReg .r2 .r3 .r4 ∧ decode 0x96C0 = .not .r3 .r3 ∧ decode 0xCFFF = .jmp .r7 ∧
      decode 0xFF25 = .trap 0x25 := by decide

/-- R92's worked example and P1's words. -/
theorem test_encode_examples :
    encode (.addImm .r0 .r1 5) = 0x1065 ∧ encode (.br false false true (-3)) = 0x03FD ∧
      encode (.str .r3 .r1 5) = 0x7645 ∧ encode (.not .r1 .r2) = 0x92BF := by decide

/-- R79's table in spec/opcode_table.json's numbering. -/
theorem test_decodeTableWord : decodeTableWord 16 0x1065 = some (.addImm .r0 .r1 5) := by decide

/-! ### Operands and flags -/

/-- S1. -/
theorem test_sext :
    sext 0x0F#5 = 0x000F ∧ sext 0x10#5 = 0xFFF0 ∧ sext 0x20#6 = 0xFFE0 ∧ sext 0x1FD#9 = 0xFFFD ∧
      sext 0x400#11 = 0xFC00 ∧ sext 0x3FF#11 = 0x03FF ∧ sext 0x8001#16 = 0x8001 ∧ sext 0x1#1 = 0xFFFF := by decide

/-- R26. -/
theorem test_condOf : condOf 0x8000 = 4 ∧ condOf 0x7FFF = 1 ∧ condOf 0x0001 = 1 ∧ condOf 0xFFFF = 4 ∧ condOf 0 = 2 := by
  decide

/-- R74: a register field names the register of its unsigned number. -/
theorem test_register_number : ∀ b : BitVec 3, Reg.ofIndex b.toNat = some (Reg.ofBits b) := by decide

/-! ### One step of each instruction -/

/-- V-ADD-1. -/
theorem test_addReg_wraps :
    (after ((base.setReg .r3 0x7FFF).setReg .r4 0x0001) 0x14C4).map (fun t => (t.reg .r2, t.cond, t.pc)) =
      some (0x8000, 4, 0x3001) := by decide
/-- V-ADD-4. -/
theorem test_addReg_same_register :
    (after (base.setReg .r1 0x4000) 0x1241).map (fun t => (t.reg .r1, t.cond)) = some (0x8000, 4) := by decide
/-- S3. -/
theorem test_addImm_scenario :
    (after (base.setReg .r1 3) 0x1065).map (fun t => (t.reg .r0, t.cond, t.pc)) = some (8, 1, 0x3001) := by decide
/-- V-ADD-6. -/
theorem test_addImm_most_negative :
    (after (base.setReg .r0 0x0010) 0x1030).map (fun t => (t.reg .r0, t.cond)) = some (0, 2) := by decide
/-- V-AND-1. -/
theorem test_andReg :
    (after ((base.setReg .r3 0xFF0F).setReg .r4 0x0FF0) 0x54C4).map (fun t => (t.reg .r2, t.cond)) =
      some (0x0F00, 1) := by decide
/-- V-AND-5. -/
theorem test_andImm_sign_extended_mask :
    (after (base.setReg .r6 0x1234) 0x5BB0).map (fun t => (t.reg .r5, t.cond)) = some (0x1230, 1) := by decide
/-- V-NOT-3. -/
theorem test_not :
    (after (base.setReg .r2 0x8000) 0x92BF).map (fun t => (t.reg .r1, t.cond)) = some (0x7FFF, 1) := by decide
/-- V-LD-5. -/
theorem test_ld_wraps :
    (after (base.setPc 0xFFFF) 0x25FF).map (fun t => (t.reg .r2, t.cond, t.pc)) = some (0x25FF, 1, 0) := by decide
/-- V-LD-4, the LD result on the memory of S5 (conflict C2). -/
theorem test_ld_gives_the_pointer :
    (after ((base.writeMem 0x3010 0x4000).writeMem 0x4000 0x002A) 0x200F).map (fun t => (t.reg .r0, t.cond)) =
      some (0x4000, 1) := by decide
/-- S5. -/
theorem test_ldi_pointer_chain :
    (after ((base.writeMem 0x3010 0x4000).writeMem 0x4000 0x002A) 0xA00F).map (fun t => (t.reg .r0, t.cond)) =
      some (0x002A, 1) := by decide
/-- V-LDR-3. -/
theorem test_ldr_destination_is_base :
    (after ((base.setReg .r1 0x4000).writeMem 0x4000 0x4001) 0x6240).map (fun t => (t.reg .r1, t.cond)) =
      some (0x4001, 1) := by decide
/-- V-LDR-4. -/
theorem test_ldr_wraps_downward :
    (after ((base.setReg .r2 0x0010).writeMem 0xFFF0 0xFFFF) 0x62A0).map (fun t => (t.reg .r1, t.cond)) =
      some (0xFFFF, 4) := by decide
/-- V-LEA-3. -/
theorem test_lea_sets_neg :
    (after (base.setPc 0x7F00) 0xE8FF).map (fun t => (t.reg .r4, t.cond, t.pc)) = some (0x8000, 4, 0x7F01) := by decide
/-- V-ST-1. -/
theorem test_st_keeps_flags :
    (after ((base.setReg .r3 0xABCD).setCond 1) 0x3605).map (fun t => (t.readMem 0x3006, t.cond, t.pc)) =
      some (0xABCD, 1, 0x3001) := by decide
/-- V-ST-3. -/
theorem test_st_overwrites_its_own_word :
    (after (base.setReg .r3 0xABCD) 0x37FF).map (fun t => (t.readMem 0x3000, t.pc)) = some (0xABCD, 0x3001) := by decide
/-- V-STI-1. -/
theorem test_sti :
    (after ((base.setReg .r3 0x00FF).writeMem 0x3005 0x6000) 0xB604).map
      (fun t => (t.readMem 0x6000, t.readMem 0x3005)) = some (0x00FF, 0x6000) := by decide
/-- V-STI-2. -/
theorem test_sti_own_pointer :
    (after ((base.setReg .r3 0x00FF).writeMem 0x3005 0x3005) 0xB604).map (·.readMem 0x3005) = some 0x00FF := by decide
/-- V-STR-2. -/
theorem test_str_wraps_downward :
    (after (base.setReg .r3 0x1111) 0x7720).map (·.readMem 0xFFE0) = some 0x1111 := by decide
/-- V-BR-0 and V-BR-5: the row n z p = 1 0 1 and the row 1 1 1. -/
theorem test_br_rows :
    [4, 2, 1, 0].map (fun c => (after (base.setCond c) 0x0A05).map (·.pc)) =
      [some 0x3006, some 0x3001, some 0x3006, some 0x3001] ∧
    [4, 2, 1, 0].map (fun c => (after (base.setCond c) 0x0E05).map (·.pc)) =
      [some 0x3006, some 0x3006, some 0x3006, some 0x3001] := by decide
/-- V-BR-4. -/
theorem test_br_wraps : (after ((base.setPc 0xFFFF).setCond 1) 0x0E01).map (·.pc) = some 0x0001 := by decide
/-- V-JMP-3. -/
theorem test_jmp : (after (base.setReg .r7 0x3005) 0xCFFF).map (·.pc) = some 0x3005 := by decide
/-- V-JSR-3 and V-JSR-5. -/
theorem test_jsr :
    (after base 0x4C00).map (fun t => (t.reg .r7, t.pc)) = some (0x3001, 0x2C01) ∧
    (after (base.setPc 0xFFFF) 0x4805).map (fun t => (t.reg .r7, t.pc)) = some (0, 5) := by decide
/-- V-JSRR-1 and V-JSRR-2. -/
theorem test_jsrr :
    (after (base.setReg .r2 0x5000) 0x4080).map (fun t => (t.reg .r7, t.pc)) = some (0x3001, 0x5000) ∧
    (after (base.setReg .r7 0x5000) 0x41C0).map (fun t => (t.reg .r7, t.pc)) = some (0x3001, 0x3001) := by decide
/-- V-TRAP-1. -/
theorem test_trap_getc :
    (after (((base.setReg .r0 0xABCD).setCond 4).supplyInput [0x41]) 0xF020).map
      (fun t => (t.reg .r0, t.reg .r7, t.cond, t.input, t.output)) = some (0x0041, 0x3001, 4, [], []) := by decide
/-- V-TRAP-2. -/
theorem test_trap_out :
    (after (base.setReg .r0 0x1241) 0xF021).map (fun t => (t.reg .r0, t.output)) = some (0x1241, [0x41]) := by decide
/-- V-TRAP-3. -/
theorem test_trap_puts :
    (after (((base.setReg .r0 0x4000).writeMem 0x4000 0x0048).writeMem 0x4001 0x0169) 0xF022).map
      (fun t => (t.output, t.reg .r7)) = some ([0x48, 0x69], 0x3001) := by decide
/-- V-TRAP-5, but for the output, which holds the free prompt. -/
theorem test_trap_in :
    (after (base.supplyInput [0x7A]) 0xF023).map (fun t => (t.reg .r0, t.reg .r7, t.input, t.cond)) =
      some (0x007A, 0x3001, [], 0) := by decide
/-- V-TRAP-6. -/
theorem test_trap_putsp_zero_high_byte :
    (after ((((base.setReg .r0 0x4000).writeMem 0x4000 0x6548).writeMem 0x4001 0x006C).writeMem 0x4002 0x4141)
      0xF024).map (·.output) = some [0x48, 0x65, 0x6C] := by decide
/-- V-TRAP-8. -/
theorem test_trap_putsp_zero_low_byte :
    (after (((base.setReg .r0 0x4000).writeMem 0x4000 0x6500).writeMem 0x4001 0x6C6C) 0xF024).map (·.output) =
      some [] := by decide
/-- V-TRAP-9. -/
theorem test_trap_halt :
    (after base 0xF025).map (fun t => (t.halt, t.pc, t.reg .r7, t.haltedCleanly)) = some (true, 0x3001, 0x3001, true) := by
  decide
/-- V-TRAP-12 and V-TRAP-13. -/
theorem test_trap_unsupported :
    (after base 0xF026).map (fun t => (t.fault, t.reg .r7, t.pc, t.halt)) =
      some (some (.unsupportedTrapVector 0x26), 0x3001, 0x3001, false) ∧
    (after base 0xF01F).map (fun t => (t.fault, t.faulted)) = some (some (.unsupportedTrapVector 0x1F), true) := by decide
/-- V-TRAP-15. -/
theorem test_trap_getc_without_input : step (base.writeMem 0x3000 0xF020) = .fault .consoleInputEmpty := rfl
/-- V-RTI-1. -/
theorem test_rti :
    (after ((base.setReg .r7 0x1234).setCond 4) 0x8000).map (fun t => (t.pc, t.reg .r7, t.cond, t.events)) =
      some (0x3001, 0x1234, 4, [.fetch 0x3000 0x8000, .unimplemented .rti]) := by decide
/-- V-RES-2. -/
theorem test_res :
    (after base 0xDABC).map (fun t => (t.pc, t.events)) =
      some (0x3001, [.fetch 0x3000 0xDABC, .unimplemented .res]) := by decide

/-! ### Step, reset, ports -/

/-- V-STEP-1. -/
theorem test_step_before_init : step State.reset = .next State.reset := rfl
/-- V-STEP-3: a set fault marker is sticky. -/
theorem test_step_faulted (v : Byte) :
    step (base.raiseFatal (.unsupportedTrapVector v)) = .next (base.raiseFatal (.unsupportedTrapVector v)) := rfl
/-- V-STEP-5: cleared memory is a never-taken BR, and PC wraps. -/
theorem test_step_wraps : (after (base.setPc 0xFFFF) 0x0000).map (·.pc) = some 0 := by decide
/-- V-INIT-1. -/
theorem test_init :
    let t := ((base.setReg .r0 0x0042).setHalt true).applyInit
    (t.halt, t.pc, t.reg .r0) = (false, 0x3000, 0x0042) := by decide
/-- V-RESET-1: a machine that ran is cleared, the host's streams stay (log entry 19). -/
theorem test_reset_event :
    (((base.setReg .r0 1).writeMem 5 6).raiseFatal .undefinedOpcode).applyReset = State.reset := rfl
/-- R28. -/
theorem test_host_register_index_refused : base.hostWriteReg 10 1 = .refused (.registerIndexOutOfRange 10) := rfl
/-- The first instruction after reset, placed as the host places it. -/
theorem test_withFetchWord :
    (after (State.reset.withFetchWord 16 0x1021) 0x1021).map (fun t => (t.reg .r0, t.pc)) = some (1, 1) := by decide

/-! ### A run and its end (R109, R110) -/

/-- HALT in the first word of the program. -/
def haltFirst : State := State.reset.writeMem 0x3000 0xF025

/-- An unsupported vector in the first word of the program. -/
def fatalFirst : State := State.reset.writeMem 0x3000 0xF0FF

theorem run_haltFirst : Run haltFirst [] haltFirst.applyInit := .init

theorem test_run_ends_at_halt : ∃ t, EndsNormally haltFirst [.step] t ∧ t.pc = 0x3001 ∧ t.reg .r7 = 0x3001 :=
  ⟨_, ⟨.next run_haltFirst rfl rfl rfl, by decide⟩, by decide, by decide⟩

/-- R110: the reset state passes the bare test, but no run has ended in it before its first event. -/
theorem test_reset_is_no_end_of_a_run (s : State) : State.reset.haltedCleanly = true ∧ ¬ EndsNormally s [] State.reset :=
  ⟨rfl, not_endsNormally_at_init s _⟩

/-- R109: `ADD R0, R0, #1` then HALT: two calls, no fewer. -/
theorem test_driverLoop :
    let s := (State.launch [0x1021, 0xF025])
    (match driverLoop 2 s with | .normal t => some (t.reg .r0, t.pc) | _ => none) = some (1, 0x3002) ∧
    (match driverLoop 1 s with | .ceased t => some t.pc | _ => none) = some 0x3001 := by decide

/-- R33: the driver's loop does not report a normal end of a faulted machine. -/
theorem test_driverLoop_faulted :
    (match driverLoop 5 fatalFirst.applyInit with | .faulted t => t.fault | _ => none) =
      some (.unsupportedTrapVector 0xFF) := by decide

/-! ### Witnesses: states and operands that meet the hypotheses of each statement -/

theorem witness_EncodeOfDecodeGivesCustomaryWordBack : customary 0x1065 = true := by decide

theorem witness_UncoveredBitsAreIgnoredByDecode :
    [((0xF020 : Word), (0x1000 : Word), (0x0018 : Word)), (0xF020, 0x5000, 0x0018), (0xF000, 0x9000, 0x003F),
      (0xF000, 0xC000, 0x0E3F), (0xF800, 0x4000, 0x063F), (0xF000, 0xF000, 0x0F00), (0xF000, 0x8000, 0x0FFF),
      (0xF000, 0xD000, 0x0FFF)].all
      (fun l => l.2.1 &&& l.1 == l.2.1 && l.2.2 &&& ~~~ l.2.2 == 0) = true := by decide

/-- Both ends of the range of N, a bit inside the field and one above it. -/
theorem witness_SignExtensionCopiesTheSignBit :
    (1 ≤ 1 ∧ 1 ≤ 16) ∧ (1 ≤ 16 ∧ 16 ≤ 16) ∧ (0 < 1) ∧ (15 < 16) ∧ (1 ≤ 1 ∧ 1 < 16) ∧ (1 ≤ 15 ∧ 15 < 16) := by decide

theorem witness_MemWritesOverwriteAndCommute : base.mem.wf ∧ (0x0000 : Word) ≠ 0xFFFF := by decide

/-- The decoding clause of each instruction's statement has words it speaks of. -/
theorem witness_decoding_clauses :
    (opcodeOf 0x1000 = .add ∧ (0x1000 : Word).getLsbD 5 = false) ∧ (opcodeOf 0x1020 = .add ∧ (0x1020 : Word).getLsbD 5 = true) ∧
    (opcodeOf 0x5000 = .and ∧ (0x5000 : Word).getLsbD 5 = false) ∧ (opcodeOf 0x5020 = .and ∧ (0x5020 : Word).getLsbD 5 = true) ∧
    opcodeOf 0x9000 = .not ∧ opcodeOf 0x2000 = .ld ∧ opcodeOf 0xA000 = .ldi ∧ opcodeOf 0x6000 = .ldr ∧
    opcodeOf 0xE000 = .lea ∧ opcodeOf 0x3000 = .st ∧ opcodeOf 0xB000 = .sti ∧ opcodeOf 0x7000 = .str ∧
    opcodeOf 0x0000 = .br ∧ opcodeOf 0xC000 = .jmp ∧ (opcodeOf 0x4800 = .jsr ∧ (0x4800 : Word).getLsbD 11 = true) ∧
    (opcodeOf 0x4000 = .jsr ∧ (0x4000 : Word).getLsbD 11 = false) ∧ opcodeOf 0xF000 = .trap ∧
    opcodeOf 0x8000 = .rti ∧ opcodeOf 0xD000 = .res := by decide

/-- Taken and not taken, each of the four values of COND. -/
theorem witness_BrIsTakenIffItsConditionHolds :
    [(0 : Word), 1, 2, 4].all (fun c => decide (CondReachable (base.setCond c).cond)) = true ∧
    [((4 : Word), true, false, false), (2, false, true, false), (1, false, false, true)].all
      (fun l => branchTaken l.2.1 l.2.2.1 l.2.2.2 l.1) = true ∧
    branchTaken true true true 0 = false := by decide

theorem witness_BrIsNotTakenOutsideTheThreePatterns :
    [(0 : Word), 3, 5, 0xFFFF].all (fun c => c != 1 && c != 2 && c != 4) = true := by decide

theorem witness_CallsLeaveTheReturnAddressInR7 :
    ((base.writeMem 0x3000 0x4810).running = true ∧ decode ((base.writeMem 0x3000 0x4810).readMem 0x3000) = .jsr 16 ∧
      (after base 0x4810).isSome = true) ∧
    (decode ((base.writeMem 0x3000 0x41C0).readMem 0x3000) = .jsrr .r7 ∧ (after base 0x41C0).isSome = true) ∧
    (decode ((base.writeMem 0x3000 0xF0FF).readMem 0x3000) = .trap 0xFF ∧ (after base 0xF0FF).isSome = true) := by decide

theorem witness_TrapGetc_and_TrapIn : (base.supplyInput [0x41, 0x42]).input = 0x41 :: [0x42] := rfl

/-- `n` consecutive words 0x0101 from address `a` on. -/
def filled (a n : Nat) : Memory := (List.range' a n).map (fun k => (k, 0x0101#16))

theorem filled_at (a n k : Nat) : (filled a n).at k = if a ≤ k ∧ k < a + n then 0x0101#16 else 0 := by
  induction n generalizing a with
  | zero =>
    rw [if_neg (by omega)]
    rfl
  | succ n ih =>
    show (if k = a then 0x0101#16 else (filled (a + 1) n).at k) = _
    rw [ih]
    by_cases h : k = a
    · rw [if_pos h, if_pos (by omega)]
    · rw [if_neg h]
      by_cases h' : a + 1 ≤ k ∧ k < a + 1 + n
      · rw [if_pos h', if_pos (by omega)]
      · rw [if_neg h', if_neg (by omega)]

/-- A machine with 0x0101 in the first `n` words of memory, R0 = 0. -/
def filledState (n : Nat) : State := { base with mem := filled 0 n }

theorem filledState_read (n : Nat) (a : Word) : (filledState n).readMem a = if a.toNat < n then 0x0101#16 else 0 := by
  show (filled 0 n).read a = _
  rw [Memory.read_eq_at, filled_at]
  simp

/-- PUTS at both ends of the range of `k`: the empty string, and 65,535 characters. -/
theorem witness_TrapPutsWritesUpToTheFirstZeroWord :
    ((filledState 0).readMem ((filledState 0).reg .r0 + BitVec.ofNat 16 0) = 0) ∧
    (∀ j, j < 65535 → (filledState 65535).readMem ((filledState 65535).reg .r0 + BitVec.ofNat 16 j) ≠ 0) ∧
    (filledState 65535).readMem ((filledState 65535).reg .r0 + BitVec.ofNat 16 65535) = 0 := by
  have hreg : ∀ n, (filledState n).reg .r0 = 0#16 := fun n => rfl
  refine ⟨?_, fun j hj => ?_, ?_⟩
  · rw [filledState_read]; rfl
  · have hlt : (0#16 + BitVec.ofNat 16 j).toNat < 65535 := by simp; omega
    rw [hreg, filledState_read, if_pos hlt]
    decide
  · rw [hreg, filledState_read]; rfl

/-- PUTSP at both ends of the range of `m`: the empty string, and the 131,070 bytes of 65,535 words. -/
theorem witness_TrapPutspWritesUpToTheFirstZeroByte :
    ((filledState 0).packedByte ((filledState 0).reg .r0) 0 = 0) ∧
    (∀ j, j < 131070 → (filledState 65535).packedByte ((filledState 65535).reg .r0) j ≠ 0) ∧
    (filledState 65535).packedByte ((filledState 65535).reg .r0) 131070 = 0 := by
  have hreg : ∀ n, (filledState n).reg .r0 = 0#16 := fun n => rfl
  refine ⟨?_, fun j hj => ?_, ?_⟩
  · rw [State.packedByte, filledState_read]; rfl
  · have hlt : (0#16 + BitVec.ofNat 16 (j / 2)).toNat < 65535 := by simp; omega
    rw [hreg, State.packedByte, filledState_read, if_pos hlt]
    rcases Nat.mod_two_eq_zero_or_one j with h | h <;> rw [h] <;> decide
  · rw [hreg, State.packedByte, filledState_read]; rfl

/-- Both stops can happen: no input, and no terminator in all 65,536 words. -/
theorem witness_TrapServicesStopOnlyWithoutInputOrTerminator :
    base.input = [] ∧ (∀ a : Word, (filledState 65536).readMem a ≠ 0) ∧
    ∀ a : Word, ((filledState 65536).readMem a).extractLsb' 0 8 ≠ 0#8 ∧
      ((filledState 65536).readMem a).extractLsb' 8 8 ≠ 0#8 := by
  have hread : ∀ a : Word, (filledState 65536).readMem a = 0x0101#16 := fun a => by
    rw [filledState_read, if_pos a.isLt]
  refine ⟨rfl, fun a => ?_, fun a => ?_⟩ <;> rw [hread] <;> decide

theorem witness_TrapUnsupportedVectorSetsTheFaultMarker :
    [(0x00 : Byte), 0x1F, 0x26, 0xFF].all (fun v => decide (v.toNat < 0x20 ∨ 0x25 < v.toNat)) = true := by decide

theorem witness_TrapWritesTheLinkForEveryVector :
    ∃ t, exec (.trap 0xFF) base = .next t := ⟨_, rfl⟩

theorem witness_TrapNeitherReadsNorWritesR1ToR6 : Reg.r1 ≠ .r0 ∧ Reg.r1 ≠ .r7 ∧ Reg.r6 ≠ .r0 ∧ Reg.r6 ≠ .r7 := by decide

theorem witness_CondIsWrittenByTheSevenAndReadByBr :
    (∃ t, exec (.addImm .r1 .r0 (-1)) base = .next t) ∧ flagDest (.addImm .r1 .r0 (-1)) = some .r1 ∧
    (∃ t, exec (.st .r0 0) base = .next t) ∧ flagDest (.st .r0 0) = none ∧
    ∀ n z p off9, Instr.st .r0 0 ≠ .br n z p off9 :=
  ⟨⟨_, rfl⟩, rfl, ⟨_, rfl⟩, rfl, nofun⟩

theorem witness_NothingChangesButWhatTheRuleNames :
    (∃ t, exec (.st .r0 5) base = .next t) ∧ storeAddress (.st .r0 5) base = some 0x3005 ∧
    storeAddress (.st .r0 5) base ≠ some 0x3006 ∧ Reg.r0 ∉ regsWritten (.st .r0 5) ∧ flagDest (.st .r0 5) = none ∧
    Instr.st .r0 5 ≠ .rti ∧ Instr.st .r0 5 ≠ .res ∧ ∀ v, Instr.st .r0 5 ≠ .trap v :=
  ⟨⟨_, rfl⟩, by decide, by decide, by decide, rfl, by decide, by decide, nofun⟩

/-- One running state for each row of R23's table whose PC is not simply the advanced one, and one for the rest. -/
theorem witness_PcAtTheEndOfAStepIsAsTheTableSays :
    base.running = true ∧
    [(0x0E05 : Word), 0xC0C0, 0x4810, 0x4080, 0x1021].all (fun w => (after base w).isSome) = true := by decide

theorem witness_StepFetchesAdvancesAndExecutes : base.halt = false ∧ base.fault = none := by decide

theorem witness_StoppedMachineStepsToItself :
    State.reset.halt = true ∧ (base.raiseFatal (.unsupportedTrapVector 0)).fault ≠ none := by decide

/-- A full memory with `w` at PC: 0x0101 in every other word. -/
theorem full_read (w : Word) :
    ((filledState 65536).writeMem 0x3000 w).readMem 0x3000 = w ∧
    ∀ a : Word, ((filledState 65536).writeMem 0x3000 w).readMem a = w ∨
      ((filledState 65536).writeMem 0x3000 w).readMem a = 0x0101#16 := by
  refine ⟨State.readMem_writeMem_same _ _ _, fun a => ?_⟩
  by_cases h : a = 0x3000
  · subst h; exact .inl (State.readMem_writeMem_same _ _ _)
  · rw [State.readMem_writeMem_other _ _ _ _ h, filledState_read, if_pos a.isLt]
    exact .inr rfl

/-- PUTS (PUTSP) at PC of a running machine whose memory has no zero word (no zero byte), in one state each. -/
theorem witness_StepOutcomesAreExactlyAsListed_unterminated :
    (let s := (filledState 65536).writeMem 0x3000 0xF022
     s.running = true ∧ decode (s.readMem s.pc) = .trap 0x22 ∧ ∀ a : Word, s.readMem a ≠ 0) ∧
    (let s := (filledState 65536).writeMem 0x3000 0xF024
     s.running = true ∧ decode (s.readMem s.pc) = .trap 0x24 ∧
       ∀ a : Word, (s.readMem a).extractLsb' 0 8 ≠ 0#8 ∧ (s.readMem a).extractLsb' 8 8 ≠ 0#8) := by
  refine ⟨⟨rfl, ?_, fun a => ?_⟩, ⟨rfl, ?_, fun a => ?_⟩⟩
  · show decode (State.readMem _ 0x3000) = _
    rw [(full_read _).1]; decide
  · rcases (full_read 0xF022).2 a with h | h <;> rw [h] <;> decide
  · show decode (State.readMem _ 0x3000) = _
    rw [(full_read _).1]; decide
  · rcases (full_read 0xF024).2 a with h | h <;> rw [h] <;> decide

/-- The other outcomes are met: GETC and IN without input, HALT, an unsupported vector at each end of both ranges. -/
theorem witness_StepOutcomesAreExactlyAsListed :
    [(0xF020 : Word), 0xF023].all (fun w =>
      let s := base.writeMem 0x3000 w
      s.running && s.input.isEmpty && (decode (s.readMem s.pc) == .trap 0x20 || decode (s.readMem s.pc) == .trap 0x23)) = true ∧
    (after base 0xF025).map (·.halt) = some true ∧
    [(0x00 : Byte), 0x1F, 0x26, 0xFF].all (fun v =>
      (after base (0xF000 + v.setWidth 16)).map (·.fault) == some (some (.unsupportedTrapVector v))) = true := by decide

/-- ST, STI and STR, each storing R3 to the word after it. -/
theorem witness_StoredWordIsFetchedByTheNextStep :
    (let s := base.writeMem 0x3000 0x3600
     s.running = true ∧ decode (s.readMem s.pc) = .st .r3 0 ∧
       storeAddress (.st .r3 0) s.afterFetch = some (s.pc + 1)) ∧
    (let s := (base.writeMem 0x3000 0xB604).writeMem 0x3005 0x3001
     s.running = true ∧ decode (s.readMem s.pc) = .sti .r3 4 ∧
       storeAddress (.sti .r3 4) s.afterFetch = some (s.pc + 1)) ∧
    (let s := (base.writeMem 0x3000 0x7720).setReg .r4 0x3021
     s.running = true ∧ decode (s.readMem s.pc) = .str .r3 .r4 (-32) ∧
       storeAddress (.str .r3 .r4 (-32)) s.afterFetch = some (s.pc + 1)) := by decide

theorem witness_StepKeepsTheInvariant : base.Inv ∧ ∃ t, step base = .next t :=
  ⟨⟨by decide, by decide, .inl rfl⟩, ⟨_, rfl⟩⟩

/-- The port events: one that is no write of COND, and a write of COND the statement admits. -/
theorem witness_PortEventsKeepTheInvariant :
    (∀ v, PortEvent.init = .writeReg 9 v → CondReachable v) ∧ (∃ t, port .init base = .next t) ∧
    (∀ v, PortEvent.writeReg 9 2 = .writeReg 9 v → CondReachable v) ∧ ∃ t, port (.writeReg 9 2) base = .next t :=
  ⟨nofun, ⟨_, rfl⟩, fun v h => by cases h; decide, ⟨_, rfl⟩⟩

theorem witness_HostRegisterPortHasTenRegisters : (0 < 10 ∧ 9 < 10 ∧ 8 ≠ 9) ∧ 10 ≤ 10 := by decide

theorem witness_ARunEndsNormallyOnlyByHaltOrForceHalt :
    (∃ t, EndsNormally haltFirst [.step] t) ∧ ∃ t, EndsNormally haltFirst [.forceHalt] t :=
  ⟨⟨_, .next run_haltFirst rfl rfl rfl, by decide⟩, ⟨_, .next run_haltFirst rfl rfl rfl, rfl⟩⟩

theorem witness_HaltAndForceHaltEndTheRun :
    Run haltFirst [] haltFirst.applyInit ∧ haltFirst.applyInit.running = true ∧
    decode (haltFirst.applyInit.readMem haltFirst.applyInit.pc) = .trap 0x25 :=
  ⟨run_haltFirst, rfl, by decide⟩

/-- A machine that a step of its run faults, and one that was faulted when `init` came. -/
theorem witness_AFaultedMachineHasNoNormalEnd :
    (∃ u, Run fatalFirst [.step] u ∧ u.fault ≠ none ∧ ∃ t, port .init u = .next t) ∧
    (let s := State.reset.raiseFatal (.unsupportedTrapVector 0)
     Run s [] s.applyInit ∧ s.applyInit.fault ≠ none) ∧
    PortEvent.init ≠ .reset :=
  ⟨⟨_, .next .init rfl rfl rfl, by decide, ⟨_, rfl⟩⟩, ⟨.init, by decide⟩, by decide⟩

theorem witness_TheDriverLoopFindsTheNormalEnd :
    ∃ t, driverLoop 1 haltFirst.applyInit = .normal t ∧ EndsNormally haltFirst (List.replicate 1 .step) t :=
  ⟨_, rfl, .next run_haltFirst rfl rfl rfl, by decide⟩

theorem witness_LaunchStateHoldsTheImage :
    [(0x5020 : Word), 0xF025].length ≤ 65536 ∧ 1 < [(0x5020 : Word), 0xF025].length ∧
    [(0x5020 : Word), 0xF025].length ≤ 65535 ∧ 65535 < 65536 := by decide

end Sys2Proof.Tests
end

section
/-! PROOFS of the family 00_scope: sign extension (R3) and `MemWrite` (R7). -/

namespace Sys2Proof.Machine

/-! ### Sign extension (R3), part by part -/

/-- R3: below bit N stand the field's own bits. -/
theorem sext_getLsbD_of_lt {n i : Nat} (f : BitVec n) (hn : n ≤ 16) (hi : i < n) :
    (sext f).getLsbD i = f.getLsbD i := by
  rw [sext_getLsbD f i (by omega), if_pos hi]

/-- R3: from bit N up to bit 15 stand copies of the sign bit, bit N-1 of the field. -/
theorem sext_getLsbD_of_ge {n i : Nat} (f : BitVec n) (hn : n ≤ i) (hi : i < 16) :
    (sext f).getLsbD i = f.getLsbD (n - 1) := by
  rw [sext_getLsbD f i hi, if_neg (by omega), BitVec.msb_eq_getLsbD_last]

/-- R3: a field that fits a word keeps its signed value. -/
theorem toInt_sext {n : Nat} (f : BitVec n) (hn : n ≤ 16) : (sext f).toInt = f.toInt := by
  rw [sext_eq_signExtend, BitVec.toInt_signExtend_of_le hn]

/-- R3: a 16-bit value is already extended. -/
@[simp] theorem sext_word (v : Word) : sext v = v := by
  rw [sext_eq_signExtend, BitVec.signExtend_eq]

/-- Settles O6, from the laws of the bits of `sext` and of its signed value. -/
theorem signExtensionCopiesTheSignBit : Obligations.SignExtensionCopiesTheSignBit := by
  intro n _ hn f
  exact ⟨fun _ hi => sext_getLsbD_of_lt f hn hi, fun _ hni hi => sext_getLsbD_of_ge f hni hi,
    toInt_sext f hn, sext_word⟩

/-! ### `MemWrite` (R7) -/

/-- `writeMem` touches neither the halt flag, the fault marker, the console nor the event record. -/
theorem State.quietSame_writeMem (s : State) (a v : Word) : QuietSame s (s.writeMem a v) :=
  ⟨halt_writeMem s a v, fault_writeMem s a v, input_writeMem s a v, output_writeMem s a v, events_writeMem s a v⟩

/-- R7: the whole effect of `writeMem`, on every list of cells, canonical or not. -/
theorem State.storesOnly_writeMem (s : State) (a v : Word) : StoresOnly a v s (s.writeMem a v) :=
  ⟨readMem_writeMem_same s a v, fun b hb => readMem_writeMem_other s a b v hb,
    fun r _ => reg_writeMem s a v r, pc_writeMem s a v, cond_writeMem s a v, quietSame_writeMem s a v⟩

/-- Settles O8: the effect of `writeMem` on a read of the same word, of another word, and on every other field. -/
theorem memWriteReplacesOneWord : Obligations.MemWriteReplacesOneWord :=
  State.storesOnly_writeMem

end Sys2Proof.Machine
end

section
/-! PROOFS of the family 10_state: `setcc` (R26), who writes and who reads COND (R27), and what an instruction may
change (R34). -/

namespace Sys2Proof.Machine

/-! ### `setcc` (R26) -/

/-- R26: `condOf` gives the pattern of the value's sign. -/
theorem condClassifies_condOf (v : Word) : CondClassifies (condOf v) v := by
  rcases condOf_cases v with ⟨hv, hc⟩ | ⟨hv, hc⟩ | ⟨hv, hc⟩
  · exact ⟨fun h => by omega, fun _ => hc, fun h => by omega⟩
  · exact ⟨fun h => by omega, fun h => by omega, fun _ => hc⟩
  · exact ⟨fun _ => hc, fun h => by omega, fun h => by omega⟩

theorem State.quietSame_setCond (s : State) (c : Word) : QuietSame s (s.setCond c) :=
  ⟨halt_setCond s c, fault_setCond s c, input_setCond s c, output_setCond s c, events_setCond s c⟩

/-- Settles O7: `setcc` is a `setCond` of the classified value, which no other field sees. -/
theorem setccClassifiesTheSignedValue : Obligations.SetccClassifiesTheSignedValue := fun s r =>
  ⟨condClassifies_condOf (s.reg r), fun r' _ => State.reg_setcc s r r', State.pc_setcc s r,
    State.readMem_setCond s _, State.quietSame_setCond s _⟩

/-! ### Frames of the updates the instructions are written with -/

theorem State.quietSame_writeResult (s : State) (dr : Reg) (v : Word) : QuietSame s (s.writeResult dr v) :=
  ⟨halt_writeResult s dr v, fault_writeResult s dr v, input_writeResult s dr v, output_writeResult s dr v,
    events_writeResult s dr v⟩

theorem State.quietSame_setPc (s : State) (p : Word) : QuietSame s (s.setPc p) :=
  ⟨halt_setPc s p, fault_setPc s p, input_setPc s p, output_setPc s p, events_setPc s p⟩

theorem State.quietSame_link (s : State) : QuietSame s s.link :=
  ⟨halt_link s, fault_link s, input_link s, output_link s, events_link s⟩

theorem State.regsSameBut_writeResult (s : State) (dr : Reg) (v : Word) :
    RegsSameBut [dr] s (s.writeResult dr v) := fun r hr => by
  rw [State.reg_writeResult, if_neg (List.ne_of_not_mem_cons hr)]

theorem State.regsSameBut_link (s : State) : RegsSameBut [.r7] s s.link := fun r hr =>
  State.reg_link_other s r (List.ne_of_not_mem_cons hr)

/-! ### What a TRAP changes (R165, R177) -/

/-- R165, R177: R7 for every TRAP, and R0 for GETC and IN. -/
theorem regsWritten_trap (v : Byte) :
    regsWritten (.trap v) = .r7 :: if v = 0x20 ∨ v = 0x23 then [.r0] else [] := by
  simp only [regsWritten]
  split <;> rfl

/-- A write of R0 on top of the trap link touches R7 and R0 only. -/
theorem State.regsSameBut_link_r0 {s t : State} {v : Word} (h : ∀ r, t.reg r = (s.link.setReg .r0 v).reg r) :
    RegsSameBut [.r7, .r0] s t := fun r hr => by
  obtain ⟨h7, h0⟩ : r ≠ .r7 ∧ r ≠ .r0 := by simpa using hr
  rw [h, State.reg_setReg_other _ _ _ _ h0, State.reg_link_other s r h7]

/-- The trap link itself touches R7 only, which every TRAP's rule names. -/
theorem State.regsSameBut_trap_link {s t : State} (v : Byte) (h : ∀ r, t.reg r = s.link.reg r) :
    RegsSameBut (regsWritten (.trap v)) s t := fun r hr => by
  rw [regsWritten_trap] at hr
  rw [h, State.reg_link_other s r (List.ne_of_not_mem_cons hr)]

/-- R177: a TRAP changes no general register but R7 and, for GETC and IN, R0. -/
theorem execTrap_regsSameBut {v : Byte} {s t : State} (h : execTrap v s = .next t) :
    RegsSameBut (regsWritten (.trap v)) s t := by
  rcases execTrap_next_cases h with
    ⟨rfl, c, rest, -, rfl⟩ | ⟨rfl, c, rest, -, rfl⟩ | ⟨-, bs, rfl⟩ | ⟨-, rfl⟩ | ⟨-, rfl⟩
  · exact State.regsSameBut_link_r0 (v := zext8 c) fun _ => rfl
  · exact State.regsSameBut_link_r0 (v := zext8 c) fun _ => rfl
  · exact State.regsSameBut_trap_link v fun _ => rfl
  · exact State.regsSameBut_trap_link v fun _ => rfl
  · exact State.regsSameBut_trap_link v fun _ => rfl

/-- R165: no TRAP changes PC, COND, memory or the event record. -/
theorem execTrap_keeps {v : Byte} {s t : State} (h : execTrap v s = .next t) :
    t.pc = s.pc ∧ t.cond = s.cond ∧ t.mem = s.mem ∧ t.events = s.events := by
  rcases execTrap_next_cases h with
    ⟨-, _, _, -, rfl⟩ | ⟨-, _, _, -, rfl⟩ | ⟨-, _, rfl⟩ | ⟨-, rfl⟩ | ⟨-, rfl⟩ <;> simp

/-- R173: only TRAP 0x25 changes the halt flag. -/
theorem execTrap_halt {v : Byte} {s t : State} (h : execTrap v s = .next t) (hv : v ≠ 0x25) : t.halt = s.halt := by
  rcases execTrap_next_cases h with
    ⟨-, _, _, -, rfl⟩ | ⟨-, _, _, -, rfl⟩ | ⟨-, _, rfl⟩ | ⟨hhalt, -⟩ | ⟨-, rfl⟩
  case inr.inr.inr.inl => exact absurd hhalt hv
  all_goals simp

/-- R174: only a TRAP with an unsupported vector changes the fault marker. -/
theorem execTrap_fault {v : Byte} {s t : State} (h : execTrap v s = .next t)
    (hv : ¬ (v.toNat < 0x20 ∨ 0x25 < v.toNat)) : t.fault = s.fault := by
  rcases execTrap_next_cases h with
    ⟨-, _, _, -, rfl⟩ | ⟨-, _, _, -, rfl⟩ | ⟨-, _, rfl⟩ | ⟨-, rfl⟩ | ⟨hfatal, -⟩
  case inr.inr.inr.inr => exact absurd hfatal hv
  all_goals simp

/-! ### What an instruction changes, part by part (R34) -/

section
variable {i : Instr} {s t : State} (h : exec i s = .next t)
include h

/-- Who can change the halt flag, the fault marker, a stream or the event record: TRAP, or RTI and RES by their
diagnostic. -/
theorem exec_quiet_cases :
    (isSystem i = false ∧ QuietSame s t) ∨ (∃ v, i = .trap v ∧ execTrap v s = .next t) ∨
      ((i = .rti ∨ i = .res) ∧ ∃ e, t = s.emitEvent e) := by
  rcases exec_next_cases h with
    ⟨dr, v, -, -, -, hi, rfl⟩ | ⟨a, v, -, -, hi, rfl⟩ | ⟨target, -, -, hi, rfl | ⟨-, rfl⟩⟩ | htrap |
    ⟨hi, rfl⟩ | ⟨hi, rfl⟩
  · exact .inl ⟨hi, s.quietSame_writeResult dr v⟩
  · exact .inl ⟨hi, s.quietSame_writeMem a v⟩
  · exact .inl ⟨hi, s.quietSame_setPc target⟩
  · exact .inl ⟨hi, s.quietSame_link⟩
  · exact .inr (.inl htrap)
  · exact .inr (.inr ⟨.inl hi, _, rfl⟩)
  · exact .inr (.inr ⟨.inr hi, _, rfl⟩)

theorem exec_regsSameBut : RegsSameBut (regsWritten i) s t := by
  rcases exec_next_cases h with
    ⟨dr, v, -, hregs, -, -, rfl⟩ | ⟨a, v, -, -, -, rfl⟩ | ⟨target, -, -, -, rfl | ⟨hregs, rfl⟩⟩ |
    ⟨v, rfl, htrap⟩ | ⟨-, rfl⟩ | ⟨-, rfl⟩
  · exact hregs ▸ s.regsSameBut_writeResult dr v
  · exact fun r _ => s.reg_writeMem a v r
  · exact fun r _ => s.reg_setPc target r
  · exact hregs ▸ s.regsSameBut_link
  · exact execTrap_regsSameBut htrap
  · exact fun r _ => s.reg_emitEvent _ r
  · exact fun r _ => s.reg_emitEvent _ r

theorem exec_readMem (b : Word) (hb : storeAddress i s ≠ some b) : t.readMem b = s.readMem b := by
  rcases exec_next_cases h with
    ⟨dr, v, -, -, -, -, rfl⟩ | ⟨a, v, -, haddr, -, rfl⟩ | ⟨target, -, -, -, rfl | ⟨-, rfl⟩⟩ |
    ⟨v, rfl, htrap⟩ | ⟨-, rfl⟩ | ⟨-, rfl⟩
  · exact s.readMem_writeResult dr v b
  · exact s.readMem_writeMem_other a b v fun hba => hb (hba ▸ haddr)
  · exact s.readMem_setPc target b
  · exact s.readMem_link b
  · obtain ⟨-, -, hmem, -⟩ := execTrap_keeps htrap
    exact congrArg (Memory.read · b) hmem
  · exact s.readMem_emitEvent _ b
  · exact s.readMem_emitEvent _ b

theorem exec_cond (hi : flagDest i = none) : t.cond = s.cond := by
  rcases exec_next_cases h with
    ⟨dr, v, hdest, -, -, -, -⟩ | ⟨a, v, -, -, -, rfl⟩ | ⟨target, -, -, -, rfl | ⟨-, rfl⟩⟩ |
    ⟨v, rfl, htrap⟩ | ⟨-, rfl⟩ | ⟨-, rfl⟩
  · exact absurd (hdest.symm.trans hi) (Option.some_ne_none dr)
  · exact s.cond_writeMem a v
  · exact s.cond_setPc target
  · exact s.cond_link
  · obtain ⟨-, hcond, -, -⟩ := execTrap_keeps htrap
    exact hcond
  · exact s.cond_emitEvent _
  · exact s.cond_emitEvent _

/-- R27: a flag-setting instruction leaves COND classifying the value its destination now holds. -/
theorem exec_condClassifies {dr : Reg} (hi : flagDest i = some dr) : CondClassifies t.cond (t.reg dr) := by
  rcases exec_next_cases h with
    ⟨dr', v, hdest, -, -, -, rfl⟩ | ⟨a, v, hdest, -⟩ | ⟨target, hdest, -⟩ | ⟨v, rfl, -⟩ | ⟨rfl, -⟩ | ⟨rfl, -⟩
  · obtain rfl : dr' = dr := Option.some.inj (hdest.symm.trans hi)
    rw [State.cond_writeResult, State.reg_writeResult, if_pos rfl]
    exact condClassifies_condOf v
  · exact absurd (hi.symm.trans hdest) (Option.some_ne_none dr)
  · exact absurd (hi.symm.trans hdest) (Option.some_ne_none dr)
  · cases hi
  · cases hi
  · cases hi

theorem exec_halt (hi : i ≠ .trap 0x25) : t.halt = s.halt := by
  rcases exec_quiet_cases h with ⟨-, hhalt, -⟩ | ⟨v, rfl, htrap⟩ | ⟨-, e, rfl⟩
  · exact hhalt
  · exact execTrap_halt htrap fun hv => hi (congrArg Instr.trap hv)
  · exact s.halt_emitEvent e

theorem exec_fault (hi : ∀ v : Byte, v.toNat < 0x20 ∨ 0x25 < v.toNat → i ≠ .trap v) : t.fault = s.fault := by
  rcases exec_quiet_cases h with ⟨-, -, hfault, -⟩ | ⟨v, rfl, htrap⟩ | ⟨-, e, rfl⟩
  · exact hfault
  · exact execTrap_fault htrap fun hv => hi v hv rfl
  · exact s.fault_emitEvent e

theorem exec_streams (hi : ∀ v : Byte, i ≠ .trap v) : t.input = s.input ∧ t.output = s.output := by
  rcases exec_quiet_cases h with ⟨-, -, -, hin, hout, -⟩ | ⟨v, htrap, -⟩ | ⟨-, e, rfl⟩
  · exact ⟨hin, hout⟩
  · exact absurd htrap (hi v)
  · exact ⟨s.input_emitEvent e, s.output_emitEvent e⟩

theorem exec_events (hrti : i ≠ .rti) (hres : i ≠ .res) : t.events = s.events := by
  rcases exec_quiet_cases h with ⟨-, -, -, -, -, hevents⟩ | ⟨v, rfl, htrap⟩ | ⟨hrti' | hres', -⟩
  · exact hevents
  · obtain ⟨-, -, -, hevents⟩ := execTrap_keeps htrap
    exact hevents
  · exact absurd hrti' hrti
  · exact absurd hres' hres

end

/-- Settles O40, part by part, each over the shapes an instruction's effect can have. -/
theorem nothingChangesButWhatTheRuleNames : Obligations.NothingChangesButWhatTheRuleNames := fun _ _ _ h =>
  ⟨exec_regsSameBut h, exec_readMem h, exec_cond h, exec_halt h, exec_fault h, exec_streams h, exec_events h⟩

/-! ### Who reads COND (R27) -/

theorem mapNext_id (o : Host.Outcome State Fault Refusal) : mapNext (fun t => t) o = o := by
  cases o <;> rfl

/-- The end of PUTS and PUTSP neither reads COND nor changes it. -/
theorem State.emitString_setCond (s : State) (bytes : Option (List Byte)) (c : Word) :
    (s.setCond c).emitString bytes = mapNext (·.setCond c) (s.emitString bytes) := by
  cases bytes <;> rfl

/-- No service reads COND or changes it. -/
theorem execTrap_setCond (v : Byte) (s : State) (c : Word) :
    execTrap v (s.setCond c) = mapNext (·.setCond c) (execTrap v s) := by
  unfold execTrap
  cases TrapService.ofVector v with
  | none => rfl
  | some service =>
    cases service with
    | getc =>
      simp only [serviceGetc, State.input_link, State.input_setCond]
      cases s.input <;> rfl
    | in_ =>
      simp only [serviceIn, State.input_link, State.input_setCond]
      cases s.input <;> rfl
    | out => rfl
    | puts => exact s.link.emitString_setCond _ c
    | putsp => exact s.link.emitString_setCond _ c
    | halt => rfl

/-- A flag-setting instruction overwrites COND without reading it. -/
theorem exec_setCond_of_setsFlags {i : Instr} {dr : Reg} (hi : flagDest i = some dr) (s : State) (c : Word) :
    exec i (s.setCond c) = exec i s := by
  cases i with
  | addReg _ _ _ | addImm _ _ _ | andReg _ _ _ | andImm _ _ _ | not _ _ => rfl
  | ld _ _ | ldi _ _ | ldr _ _ _ | lea _ _ => rfl
  | br _ _ _ _ | jmp _ | jsr _ | jsrr _ | st _ _ | sti _ _ | str _ _ _ | trap _ | rti | res => cases hi

/-- Any other instruction but BR passes COND through without reading it. -/
theorem exec_setCond_of_keepsFlags {i : Instr} (hi : flagDest i = none) (hbr : ∀ n z p off9, i ≠ .br n z p off9)
    (s : State) (c : Word) : exec i (s.setCond c) = mapNext (·.setCond c) (exec i s) := by
  cases i with
  | addReg _ _ _ | addImm _ _ _ | andReg _ _ _ | andImm _ _ _ | not _ _ => cases hi
  | ld _ _ | ldi _ _ | ldr _ _ _ | lea _ _ => cases hi
  | br n z p off9 => exact absurd rfl (hbr n z p off9)
  | jmp _ | jsr _ | jsrr _ | st _ _ | sti _ _ | str _ _ _ | rti | res => rfl
  | trap v => exact execTrap_setCond v s c

/-- Settles O39: the writers by the shapes of an instruction's effect, the readers by whether it sets flags. -/
theorem condIsWrittenByTheSevenAndReadByBr : Obligations.CondIsWrittenByTheSevenAndReadByBr := by
  refine ⟨fun i s t h => ⟨fun _ hi => exec_condClassifies h hi, exec_cond h⟩, fun i s c hbr => ?_⟩
  cases hi : flagDest i with
  | some dr =>
    rw [exec_setCond_of_setsFlags hi]
    exact (mapNext_id _).symm
  | none => exact exec_setCond_of_keepsFlags hi hbr s c

end Sys2Proof.Machine
end

section
/-! PROOFS of the family 41_operate: ADD, AND and NOT, in the decoder (R79) and in the machine (R120 to R124). -/

namespace Sys2Proof

/-! ### What the decoder reads from a word of opcode ADD, AND or NOT (R79) -/

section
variable {w : Word}

theorem decode_addReg (hop : opcodeOf w = .add) (hmode : w.getLsbD 5 = false) :
    decode w = .addReg (fieldDr w) (fieldSr1 w) (fieldSr2 w) := by
  simp only [decode, hop, hmode]

theorem decode_addImm (hop : opcodeOf w = .add) (hmode : w.getLsbD 5 = true) :
    decode w = .addImm (fieldDr w) (fieldSr1 w) (field 0 5 w) := by
  simp only [decode, hop, hmode]

theorem decode_andReg (hop : opcodeOf w = .and) (hmode : w.getLsbD 5 = false) :
    decode w = .andReg (fieldDr w) (fieldSr1 w) (fieldSr2 w) := by
  simp only [decode, hop, hmode]

theorem decode_andImm (hop : opcodeOf w = .and) (hmode : w.getLsbD 5 = true) :
    decode w = .andImm (fieldDr w) (fieldSr1 w) (field 0 5 w) := by
  simp only [decode, hop, hmode]

theorem decode_not (hop : opcodeOf w = .not) : decode w = .not (fieldDr w) (fieldSr1 w) := by
  simp only [decode, hop]

end

end Sys2Proof

namespace Sys2Proof.Machine

/-! ### The whole effect of a flag-setting instruction (R27) -/

/-- R27: `writeResult` writes its register, classifies the value into COND, and touches nothing else. -/
theorem State.writesOnly_writeResult (s : State) (dr : Reg) (v : Word) : WritesOnly dr v s (s.writeResult dr v) := by
  have hdr : (s.writeResult dr v).reg dr = v := by rw [State.reg_writeResult, if_pos rfl]
  have hcond : CondClassifies (s.writeResult dr v).cond v := by
    rw [State.cond_writeResult]
    exact condClassifies_condOf v
  exact ⟨hdr, hcond, s.regsSameBut_writeResult dr v, s.pc_writeResult dr v, s.readMem_writeResult dr v,
    s.quietSame_writeResult dr v⟩

/-- An instruction that answers with a `writeResult` completes with that whole effect. -/
theorem exec_writesOnly {i : Instr} {s : State} {dr : Reg} {v : Word} (h : exec i s = .next (s.writeResult dr v)) :
    ∃ t, exec i s = .next t ∧ WritesOnly dr v s t :=
  ⟨_, h, s.writesOnly_writeResult dr v⟩

/-! ### The value each operate instruction writes, in the rules' own terms (R120 to R124) -/

/-- R120, R4: the sum of the two values as numbers, modulo 2^16. -/
theorem exec_addReg (dr sr1 sr2 : Reg) (s : State) :
    exec (.addReg dr sr1 sr2) s =
      .next (s.writeResult dr (BitVec.ofNat 16 ((s.reg sr1).toNat + (s.reg sr2).toNat))) := by
  rw [← BitVec.add_def]
  rfl

/-- R121. -/
theorem exec_addImm (dr sr1 : Reg) (imm5 : BitVec 5) (s : State) :
    exec (.addImm dr sr1 imm5) s = .next (s.writeResult dr (s.reg sr1 + imm5.signExtend 16)) := by
  rw [← sext_eq_signExtend]
  rfl

/-- R122. -/
theorem exec_andReg (dr sr1 sr2 : Reg) (s : State) :
    exec (.andReg dr sr1 sr2) s = .next (s.writeResult dr (s.reg sr1 &&& s.reg sr2)) :=
  rfl

/-- R123. -/
theorem exec_andImm (dr sr1 : Reg) (imm5 : BitVec 5) (s : State) :
    exec (.andImm dr sr1 imm5) s = .next (s.writeResult dr (s.reg sr1 &&& imm5.signExtend 16)) := by
  rw [← sext_eq_signExtend]
  rfl

/-- R124: the complement as the distance to the word of all ones. -/
theorem exec_not (dr sr : Reg) (s : State) :
    exec (.not dr sr) s = .next (s.writeResult dr (0xFFFF - s.reg sr)) := by
  have hones : (0xFFFF : Word) = BitVec.allOnes 16 := by decide
  rw [hones, BitVec.allOnes_sub_eq_not]
  rfl

/-! ### The obligations -/

/-- Settles O10, from the decoder's equation and the wrapped sum `exec` writes. -/
theorem addRegisterWritesTheWrappedSum : Obligations.AddRegisterWritesTheWrappedSum :=
  ⟨fun _ => decode_addReg, fun s dr sr1 sr2 => exec_writesOnly (exec_addReg dr sr1 sr2 s)⟩

/-- Settles O11, from the decoder's equation and the sum with the sign-extended immediate. -/
theorem addImmediateWritesTheWrappedSum : Obligations.AddImmediateWritesTheWrappedSum :=
  ⟨fun _ => decode_addImm, fun s dr sr1 imm5 => exec_writesOnly (exec_addImm dr sr1 imm5 s)⟩

/-- Settles O12, from the decoder's equation and the bitwise AND `exec` writes. -/
theorem andRegisterWritesTheBitwiseAnd : Obligations.AndRegisterWritesTheBitwiseAnd :=
  ⟨fun _ => decode_andReg, fun s dr sr1 sr2 => exec_writesOnly (exec_andReg dr sr1 sr2 s)⟩

/-- Settles O13, from the decoder's equation and the AND with the sign-extended immediate. -/
theorem andImmediateWritesTheBitwiseAnd : Obligations.AndImmediateWritesTheBitwiseAnd :=
  ⟨fun _ => decode_andImm, fun s dr sr1 imm5 => exec_writesOnly (exec_andImm dr sr1 imm5 s)⟩

/-- Settles O14, from the decoder's equation and the complement as a subtraction from all ones. -/
theorem notWritesTheComplement : Obligations.NotWritesTheComplement :=
  ⟨fun _ => decode_not, fun s dr sr => exec_writesOnly (exec_not dr sr s)⟩

end Sys2Proof.Machine
end

section
/-! PROOFS of the family 42_load_store: the loads, LEA and the stores, in the decoder (R79) and in the machine (R130 to
R138). -/

namespace Sys2Proof

/-! ### What the decoder reads from a word of a data movement opcode (R79) -/

section
variable {w : Word}

theorem decode_ld (hop : opcodeOf w = .ld) : decode w = .ld (fieldDr w) (field 0 9 w) := by
  simp only [decode, hop]

theorem decode_ldi (hop : opcodeOf w = .ldi) : decode w = .ldi (fieldDr w) (field 0 9 w) := by
  simp only [decode, hop]

theorem decode_ldr (hop : opcodeOf w = .ldr) : decode w = .ldr (fieldDr w) (fieldSr1 w) (field 0 6 w) := by
  simp only [decode, hop]

theorem decode_lea (hop : opcodeOf w = .lea) : decode w = .lea (fieldDr w) (field 0 9 w) := by
  simp only [decode, hop]

theorem decode_st (hop : opcodeOf w = .st) : decode w = .st (fieldDr w) (field 0 9 w) := by
  simp only [decode, hop]

theorem decode_sti (hop : opcodeOf w = .sti) : decode w = .sti (fieldDr w) (field 0 9 w) := by
  simp only [decode, hop]

theorem decode_str (hop : opcodeOf w = .str) : decode w = .str (fieldDr w) (fieldSr1 w) (field 0 6 w) := by
  simp only [decode, hop]

end

end Sys2Proof

namespace Sys2Proof.Machine

/-! ### The effective addresses, in the rules' own terms (R130) -/

theorem State.pcRelative_eq {n : Nat} (s : State) (off : BitVec n) : s.pcRelative off = s.pc + off.signExtend 16 := by
  rw [State.pcRelative, sext_eq_signExtend]

theorem State.indirect_eq (s : State) (off9 : BitVec 9) :
    s.indirect off9 = s.readMem (s.pc + off9.signExtend 16) := by
  rw [State.indirect, State.pcRelative_eq]

theorem State.baseOffset_eq (s : State) (base : Reg) (off6 : BitVec 6) :
    s.baseOffset base off6 = s.reg base + off6.signExtend 16 := by
  rw [State.baseOffset, sext_eq_signExtend]

/-! ### The word each load and LEA writes (R132 to R135) -/

/-- R132. -/
theorem exec_ld (dr : Reg) (off9 : BitVec 9) (s : State) :
    exec (.ld dr off9) s = .next (s.writeResult dr (s.readMem (s.pc + off9.signExtend 16))) := by
  rw [← State.pcRelative_eq]
  rfl

/-- R133. -/
theorem exec_ldi (dr : Reg) (off9 : BitVec 9) (s : State) :
    exec (.ldi dr off9) s = .next (s.writeResult dr (s.readMem (s.readMem (s.pc + off9.signExtend 16)))) := by
  rw [← State.indirect_eq]
  rfl

/-- R134: the base is read from the state before the write. -/
theorem exec_ldr (dr base : Reg) (off6 : BitVec 6) (s : State) :
    exec (.ldr dr base off6) s = .next (s.writeResult dr (s.readMem (s.reg base + off6.signExtend 16))) := by
  rw [← State.baseOffset_eq]
  rfl

/-- R135: the address itself, no data access. -/
theorem exec_lea (dr : Reg) (off9 : BitVec 9) (s : State) :
    exec (.lea dr off9) s = .next (s.writeResult dr (s.pc + off9.signExtend 16)) := by
  rw [← State.pcRelative_eq]
  rfl

/-! ### The word each store replaces (R136 to R138) -/

/-- An instruction that answers with a `writeMem` completes with the whole effect of a store. -/
theorem exec_storesOnly {i : Instr} {s : State} {a v : Word} (h : exec i s = .next (s.writeMem a v)) :
    ∃ t, exec i s = .next t ∧ StoresOnly a v s t :=
  ⟨_, h, s.storesOnly_writeMem a v⟩

/-- R136. -/
theorem exec_st (sr : Reg) (off9 : BitVec 9) (s : State) :
    exec (.st sr off9) s = .next (s.writeMem (s.pc + off9.signExtend 16) (s.reg sr)) := by
  rw [← State.pcRelative_eq]
  rfl

/-- R137: the pointer is read from the state before the write. -/
theorem exec_sti (sr : Reg) (off9 : BitVec 9) (s : State) :
    exec (.sti sr off9) s = .next (s.writeMem (s.readMem (s.pc + off9.signExtend 16)) (s.reg sr)) := by
  rw [← State.indirect_eq]
  rfl

/-- R138. -/
theorem exec_str (sr base : Reg) (off6 : BitVec 6) (s : State) :
    exec (.str sr base off6) s = .next (s.writeMem (s.reg base + off6.signExtend 16) (s.reg sr)) := by
  rw [← State.baseOffset_eq]
  rfl

/-! ### The obligations -/

/-- Settles O15, from the decoder's equation and the PC-relative word `exec` writes. -/
theorem ldLoadsThePcRelativeWord : Obligations.LdLoadsThePcRelativeWord :=
  ⟨fun _ => decode_ld, fun s dr off9 => exec_writesOnly (exec_ld dr off9 s)⟩

/-- Settles O16, from the decoder's equation and the word behind the pointer. -/
theorem ldiLoadsThroughThePointer : Obligations.LdiLoadsThroughThePointer :=
  ⟨fun _ => decode_ldi, fun s dr off9 => exec_writesOnly (exec_ldi dr off9 s)⟩

/-- Settles O17, from the decoder's equation and the word at the old base plus the offset. -/
theorem ldrLoadsFromBasePlusOffset : Obligations.LdrLoadsFromBasePlusOffset :=
  ⟨fun _ => decode_ldr, fun s dr base off6 => exec_writesOnly (exec_ldr dr base off6 s)⟩

/-- Settles O18, from the decoder's equation and the address `exec` writes. -/
theorem leaWritesTheAddressAndFlags : Obligations.LeaWritesTheAddressAndFlags :=
  ⟨fun _ => decode_lea, fun s dr off9 => exec_writesOnly (exec_lea dr off9 s)⟩

/-- Settles O19, from the decoder's equation and the one `writeMem` at the PC-relative address. -/
theorem stStoresAtThePcRelativeAddress : Obligations.StStoresAtThePcRelativeAddress :=
  ⟨fun _ => decode_st, fun s sr off9 => exec_storesOnly (exec_st sr off9 s)⟩

/-- Settles O20, from the decoder's equation and the one `writeMem` at the pointer's old value. -/
theorem stiStoresThroughThePointer : Obligations.StiStoresThroughThePointer :=
  ⟨fun _ => decode_sti, fun s sr off9 => exec_storesOnly (exec_sti sr off9 s)⟩

/-- Settles O21, from the decoder's equation and the one `writeMem` at base plus offset. -/
theorem strStoresAtBasePlusOffset : Obligations.StrStoresAtBasePlusOffset :=
  ⟨fun _ => decode_str, fun s sr base off6 => exec_storesOnly (exec_str sr base off6 s)⟩

end Sys2Proof.Machine
end

section
/-! PROOFS of the family 43_control_transfer: JMP and JSR, in the decoder (R79) and in the machine (R153, R154), and the
return address every call leaves in R7 (R156). -/

namespace Sys2Proof

/-! ### What the decoder reads from a word of opcode JMP or JSR (R79) -/

section
variable {w : Word}

theorem decode_jmp (hop : opcodeOf w = .jmp) : decode w = .jmp (fieldSr1 w) := by
  simp only [decode, hop]

theorem decode_jsr (hop : opcodeOf w = .jsr) (hmode : w.getLsbD 11 = true) : decode w = .jsr (field 0 11 w) := by
  simp only [decode, hop, hmode]

end

end Sys2Proof

namespace Sys2Proof.Machine

/-! ### The whole effect of a control transfer -/

/-- A move of PC alone changes nothing else. -/
theorem State.transfersOnly_setPc (s : State) (target : Word) : TransfersOnly [] target s (s.setPc target) :=
  ⟨rfl, fun r _ => s.reg_setPc target r, s.cond_setPc target, s.readMem_setPc target, s.quietSame_setPc target⟩

/-- A move of PC after the link changes R7 too, and nothing else: the frame is that of the link. -/
theorem State.transfersOnly_link_setPc (s : State) (target : Word) :
    TransfersOnly [.r7] target s (s.link.setPc target) :=
  ⟨rfl, s.regsSameBut_link, s.cond_link, s.readMem_link, s.quietSame_link⟩

/-- R156: the move of PC after the link leaves the return address in R7. -/
theorem State.reg_r7_link_setPc (s : State) (target : Word) : (s.link.setPc target).reg .r7 = s.pc := by
  rw [State.reg_setPc, State.reg_link_r7]

/-! ### Where each control transfer goes, in the rules' own terms (R153 to R155) -/

/-- R153. -/
theorem exec_jmp (base : Reg) (s : State) : exec (.jmp base) s = .next (s.setPc (s.reg base)) :=
  rfl

/-- R154: the offset counts from the PC the fetch has advanced. -/
theorem exec_jsr (off11 : BitVec 11) (s : State) :
    exec (.jsr off11) s = .next (s.link.setPc (s.pc + off11.signExtend 16)) := by
  rw [← State.pcRelative_eq]
  rfl

/-- R155: the base is read from the state after the link (decision D3, log entry 5). -/
theorem exec_jsrr (base : Reg) (s : State) : exec (.jsrr base) s = .next (s.link.setPc (s.link.reg base)) :=
  rfl

/-! ### The return address (R156) -/

/-- R165: no service, nor the fatal error, writes over the return address in R7. -/
theorem execTrap_reg_r7 {v : Byte} {s t : State} (h : execTrap v s = .next t) : t.reg .r7 = s.pc := by
  rcases execTrap_next_cases h with
    ⟨-, _, _, -, rfl⟩ | ⟨-, _, _, -, rfl⟩ | ⟨-, _, rfl⟩ | ⟨-, rfl⟩ | ⟨-, rfl⟩ <;> simp

/-- R105: a running machine executes the word at PC on the state after the fetch. -/
theorem step_of_running {s : State} (hrun : s.running = true) :
    step s = exec (decode (s.readMem s.pc)) s.afterFetch :=
  if_pos hrun

/-! ### The obligations -/

/-- Settles O24, from the decoder's equation and the one `setPc` JMP answers with. -/
theorem jmpGoesToTheBaseRegister : Obligations.JmpGoesToTheBaseRegister :=
  ⟨fun _ => decode_jmp, fun s base => ⟨_, exec_jmp base s, s.transfersOnly_setPc (s.reg base)⟩⟩

/-- Settles O25, from the decoder's equation and the link followed by the PC-relative `setPc`. -/
theorem jsrLinksAndJumpsPcRelative : Obligations.JsrLinksAndJumpsPcRelative :=
  ⟨fun _ => decode_jsr, fun s off11 =>
    ⟨_, exec_jsr off11 s, s.reg_r7_link_setPc _, s.transfersOnly_link_setPc _⟩⟩

/-- Settles O27: each of the three calls leaves in R7 the PC it executes with, which the fetch has advanced by 1. -/
theorem callsLeaveTheReturnAddressInR7 : Obligations.CallsLeaveTheReturnAddressInR7 := by
  intro s t hrun hstep hcall
  rw [step_of_running hrun] at hstep
  rw [← State.pc_afterFetch]
  rcases hcall with ⟨off11, hdec⟩ | ⟨base, hdec⟩ | ⟨v, hdec⟩ <;> rw [hdec] at hstep
  · rw [exec_jsr] at hstep
    cases hstep
    exact s.afterFetch.reg_r7_link_setPc _
  · rw [exec_jsrr] at hstep
    cases hstep
    exact s.afterFetch.reg_r7_link_setPc _
  · exact execTrap_reg_r7 hstep

end Sys2Proof.Machine
end

section
/-! PROOFS of the family 44_system: the services OUT (R169) and PUTSP (R172), which write to the console only. -/

namespace Sys2Proof.Machine

/-! ### The whole effect of a service that only writes to OUTPUT -/

/-- R165: the trap link, with whatever goes to OUTPUT after it, is all that a service which only writes leaves. -/
theorem State.trapLinksOnly_link_emitOut (s : State) (bs : List Byte) :
    TrapLinksOnly [] s (s.link.emitOut bs) :=
  ⟨s.reg_link_r7, s.regsSameBut_link, s.pc_link, s.cond_link, s.readMem_link⟩

/-- A TRAP that answers with the link and an `emitOut` completes with that whole effect. -/
theorem exec_emitsOnly {v : Byte} {s : State} {bs : List Byte} (h : exec (.trap v) s = .next (s.link.emitOut bs)) :
    ∃ t, exec (.trap v) s = .next t ∧ t.output = s.output ++ bs ∧
      TrapLinksOnly [] s t ∧ t.halt = s.halt ∧ t.fault = s.fault ∧ t.input = s.input ∧ t.events = s.events := by
  obtain ⟨hhalt, hfault, hinput, -, hevents⟩ := s.quietSame_link
  exact ⟨_, h, rfl, s.trapLinksOnly_link_emitOut bs, hhalt, hfault, hinput, hevents⟩

/-! ### What each of the two writes, in the rules' own terms -/

/-- The link leaves the argument of a service in R0. -/
@[simp] theorem State.reg_link_r0 (s : State) : s.link.reg .r0 = s.reg .r0 :=
  s.reg_link_other .r0 (by decide)

/-- R169. -/
theorem exec_trap_out (s : State) :
    exec (.trap 0x21) s = .next (s.link.emitOut [(s.reg .r0).extractLsb' 0 8]) := by
  rw [← State.reg_link_r0]
  rfl

/-- R172: the scan reads the memory and R0 of the state before the link. -/
theorem exec_trap_putsp (s : State) :
    exec (.trap 0x24) s = s.link.emitString (putspBytes 65536 s.mem (s.reg .r0)) := by
  rw [← State.reg_link_r0, ← State.mem_link]
  rfl

/-! ### The obligations -/

/-- Settles O29, from the byte OUT writes and the frame of a service that only writes. -/
theorem trapOutWritesTheLowByteOfR0 : Obligations.TrapOutWritesTheLowByteOfR0 :=
  fun s => exec_emitsOnly (exec_trap_out s)

/-- Settles O32: the scan stops at the first zero byte, which 65,536 words of two bytes each are enough to reach. -/
theorem trapPutspWritesUpToTheFirstZeroByte : Obligations.TrapPutspWritesUpToTheFirstZeroByte := by
  intro s m hm hne hz
  have hscan : putspBytes 65536 s.mem (s.reg .r0) = some ((List.range m).map (s.packedByte (s.reg .r0))) :=
    putspBytes_of_terminator 65536 m s (s.reg .r0) hm hne hz
  refine exec_emitsOnly ?_
  rw [exec_trap_putsp, hscan]
  rfl

end Sys2Proof.Machine
end

section
/-! PROOFS of the family other, the encoding: the decoder and the encoder undo each other (R79, R92), the bits no field
covers (R80), and the one row of the opcode table each word selects (R79). -/

namespace Sys2Proof

/-! ### Fields of a composed word -/

@[simp] theorem field_or (lo n : Nat) (w x : Word) : field lo n (w ||| x) = field lo n w ||| field lo n x :=
  BitVec.extractLsb'_or

@[simp] theorem field_and (lo n : Nat) (w x : Word) : field lo n (w &&& x) = field lo n w &&& field lo n x :=
  BitVec.extractLsb'_and

@[simp] theorem field_xor (lo n : Nat) (w x : Word) : field lo n (w ^^^ x) = field lo n w ^^^ field lo n x :=
  BitVec.extractLsb'_xor

/-- Where a placed field is read back, it reads as itself. -/
@[simp] theorem field_place_same {lo n : Nat} (f : BitVec n) (h : lo + n ≤ 16) : field lo n (place lo f) = f := by
  apply BitVec.eq_of_getLsbD_eq
  intro j hj
  rw [field_getLsbD _ _ _ _ hj, place_getLsbD _ _ _ (by omega)]
  simp

/-- Beside a placed field there are zeros. -/
@[simp] theorem field_place_disjoint {lo n lo' m : Nat} (f : BitVec m) (hn : lo + n ≤ 16)
    (h : lo + n ≤ lo' ∨ lo' + m ≤ lo) : field lo n (place lo' f) = 0 := by
  apply BitVec.eq_of_getLsbD_eq
  intro j hj
  rw [field_getLsbD _ _ _ _ hj, place_getLsbD _ _ _ (by omega)]
  rcases h with h | h
  · simp [show ¬ lo' ≤ lo + j by omega]
  · rw [BitVec.getLsbD_of_ge f _ (by omega)]
    simp

/-- A bit of the word is the field of width 1 there. -/
theorem field_one (w : Word) (j : Nat) : field j 1 w = BitVec.ofBool (w.getLsbD j) := by
  apply BitVec.eq_of_getLsbD_eq
  intro i hi
  obtain rfl : i = 0 := by omega
  rw [field_getLsbD _ _ _ _ hi]
  simp

theorem getLsbD_eq_iff_field (w : Word) (j : Nat) (b : Bool) : w.getLsbD j = b ↔ field j 1 w = BitVec.ofBool b := by
  rw [field_one]
  cases w.getLsbD j <;> cases b <;> decide

/-! ### The opcode of an instruction (R78) -/

/-- R78: the operation an instruction belongs to. -/
def Instr.opcode : Instr → Opcode
  | .addReg _ _ _ | .addImm _ _ _ => .add
  | .andReg _ _ _ | .andImm _ _ _ => .and
  | .not _ _ => .not
  | .br _ _ _ _ => .br
  | .jmp _ => .jmp
  | .jsr _ | .jsrr _ => .jsr
  | .ld _ _ => .ld
  | .ldi _ _ => .ldi
  | .ldr _ _ _ => .ldr
  | .lea _ _ => .lea
  | .st _ _ => .st
  | .sti _ _ => .sti
  | .str _ _ _ => .str
  | .trap _ => .trap
  | .rti => .rti
  | .res => .res

/-- R92: the encoder puts the opcode number in bits 15:12. -/
@[simp] theorem opcodeOf_encode (i : Instr) : opcodeOf (encode i) = i.opcode := by
  cases i <;> simp [opcodeOf, encode, Instr.opcode]

/-! ### What the decoder reads from a word of opcode BR, JSRR, TRAP, RTI or RES (R79) -/

section
variable {w : Word}

theorem decode_br (hop : opcodeOf w = .br) :
    decode w = .br (w.getLsbD 11) (w.getLsbD 10) (w.getLsbD 9) (field 0 9 w) := by
  simp only [decode, hop]

theorem decode_jsrr (hop : opcodeOf w = .jsr) (hmode : w.getLsbD 11 = false) : decode w = .jsrr (fieldSr1 w) := by
  simp only [decode, hop, hmode]

theorem decode_trap (hop : opcodeOf w = .trap) : decode w = .trap (field 0 8 w) := by
  simp only [decode, hop]

theorem decode_rti (hop : opcodeOf w = .rti) : decode w = .rti := by
  simp only [decode, hop]

theorem decode_res (hop : opcodeOf w = .res) : decode w = .res := by
  simp only [decode, hop]

end

/-! ### The decoder undoes the encoder -/

/-- R79, R92: the decoder finds the opcode, the mode bit and each field where the encoder has put them. -/
theorem decode_encode (i : Instr) : decode (encode i) = i := by
  have hop := opcodeOf_encode i
  cases i with
  | addReg dr sr1 sr2 =>
    rw [decode_addReg hop ((getLsbD_eq_iff_field _ _ _).mpr (by simp [encode]))]
    simp [encode, fieldDr, fieldSr1, fieldSr2]
  | addImm dr sr1 imm5 =>
    rw [decode_addImm hop ((getLsbD_eq_iff_field _ _ _).mpr (by simp [encode]))]
    simp [encode, fieldDr, fieldSr1]
  | andReg dr sr1 sr2 =>
    rw [decode_andReg hop ((getLsbD_eq_iff_field _ _ _).mpr (by simp [encode]))]
    simp [encode, fieldDr, fieldSr1, fieldSr2]
  | andImm dr sr1 imm5 =>
    rw [decode_andImm hop ((getLsbD_eq_iff_field _ _ _).mpr (by simp [encode]))]
    simp [encode, fieldDr, fieldSr1]
  | jsr off11 =>
    rw [decode_jsr hop ((getLsbD_eq_iff_field _ _ _).mpr (by simp [encode]))]
    simp [encode]
  | jsrr base =>
    rw [decode_jsrr hop ((getLsbD_eq_iff_field _ _ _).mpr (by simp [encode]))]
    simp [encode, fieldSr1]
  | br n z p off9 =>
    rw [decode_br hop]
    have hbit (b : Bool) (j : Nat) (h : field j 1 (encode (.br n z p off9)) = BitVec.ofBool b) :=
      (getLsbD_eq_iff_field _ j b).mpr h
    rw [hbit n 11 (by simp [encode]), hbit z 10 (by simp [encode]), hbit p 9 (by simp [encode])]
    simp [encode]
  | not dr sr => rw [decode_not hop]; simp [encode, fieldDr, fieldSr1]
  | jmp base => rw [decode_jmp hop]; simp [encode, fieldSr1]
  | ld dr off9 => rw [decode_ld hop]; simp [encode, fieldDr]
  | ldi dr off9 => rw [decode_ldi hop]; simp [encode, fieldDr]
  | ldr dr base off6 => rw [decode_ldr hop]; simp [encode, fieldDr, fieldSr1]
  | lea dr off9 => rw [decode_lea hop]; simp [encode, fieldDr]
  | st sr off9 => rw [decode_st hop]; simp [encode, fieldDr]
  | sti sr off9 => rw [decode_sti hop]; simp [encode, fieldDr]
  | str sr base off6 => rw [decode_str hop]; simp [encode, fieldDr, fieldSr1]
  | trap v => rw [decode_trap hop]; simp [encode]
  | rti => exact decode_rti hop
  | res => exact decode_res hop

/-- Settles O1: the decoder undoes the encoder. -/
theorem decodeOfEncodeGivesInstructionBack : Obligations.DecodeOfEncodeGivesInstructionBack :=
  decode_encode


/-! ### Masks, in the terms of fields -/

section
variable {w : Word} {lo n hi m : Nat}

/-- A mask of adjacent ones cuts the field there out of the word. -/
theorem and_place_allOnes : w &&& place lo (BitVec.allOnes n) = place lo (field lo n w) := by
  apply BitVec.eq_of_getLsbD_eq
  intro j hj
  rw [BitVec.getLsbD_and, place_getLsbD _ _ _ hj, place_getLsbD _ _ _ hj, BitVec.getLsbD_allOnes]
  by_cases hlo : lo ≤ j
  · by_cases hn : j - lo < n
    · rw [field_getLsbD _ _ _ _ hn, Nat.add_sub_cancel' hlo]
      simp [hn, hlo]
    · simp [hn, BitVec.getLsbD_of_ge _ _ (Nat.le_of_not_lt hn)]
  · simp [hlo]

theorem and_mask_eq_iff (f : BitVec n) (h : lo + n ≤ 16) :
    w &&& place lo (BitVec.allOnes n) = place lo f ↔ field lo n w = f := by
  rw [and_place_allOnes]
  refine ⟨fun heq => ?_, congrArg (place lo)⟩
  have := congrArg (field lo n) heq
  rwa [field_place_same _ h, field_place_same _ h] at this

theorem and_two_masks_eq_iff (f : BitVec m) (g : BitVec n) (hm : hi + m ≤ 16) (hlo : lo + n ≤ hi) :
    w &&& (place hi (BitVec.allOnes m) ||| place lo (BitVec.allOnes n)) = place hi f ||| place lo g ↔
      field hi m w = f ∧ field lo n w = g := by
  have hn : lo + n ≤ 16 := by omega
  rw [BitVec.and_or_distrib_left, and_place_allOnes, and_place_allOnes]
  refine ⟨fun heq => ⟨?_, ?_⟩, ?_⟩
  · simpa [hm, hlo] using congrArg (field hi m) heq
  · simpa [hn, hlo] using congrArg (field lo n) heq
  · rintro ⟨rfl, rfl⟩
    rfl

/-- R71, R79: the rows the opcode alone selects. -/
theorem row_iff (o : Opcode) : w &&& 0xF000 = place 12 o.bits ↔ opcodeOf w = o := by
  rw [opcodeOf_eq_iff]
  exact and_mask_eq_iff (lo := 12) o.bits (by decide)

/-- R79: the rows of ADD and AND, told apart by bit 5. -/
theorem row_bit5_iff (o : Opcode) (b : Bool) :
    w &&& 0xF020 = place 12 o.bits ||| place 5 (BitVec.ofBool b) ↔ opcodeOf w = o ∧ w.getLsbD 5 = b := by
  rw [opcodeOf_eq_iff, getLsbD_eq_iff_field]
  exact and_two_masks_eq_iff (hi := 12) (lo := 5) o.bits (BitVec.ofBool b) (by decide) (by decide)

/-- R79: the rows of JSR and JSRR, told apart by bit 11. -/
theorem row_bit11_iff (o : Opcode) (b : Bool) :
    w &&& 0xF800 = place 12 o.bits ||| place 11 (BitVec.ofBool b) ↔ opcodeOf w = o ∧ w.getLsbD 11 = b := by
  rw [opcodeOf_eq_iff, getLsbD_eq_iff_field]
  exact and_two_masks_eq_iff (hi := 12) (lo := 11) o.bits (BitVec.ofBool b) (by decide) (by decide)

end

/-! ### The one row of a word (R79) -/

theorem TableRow.selects_iff (r : TableRow) (w : Word) : r.selects w = true ↔ w &&& r.mask = r.pattern :=
  beq_iff_eq

/-- R79: the opcode and the mode bit, by which the decoder chooses, select a row of the table with the same
mnemonic. -/
theorem exists_row_of_decode (w : Word) :
    ∃ r ∈ opcodeTable, w &&& r.mask = r.pattern ∧ (decode w).mnemonic = r.mnemonic := by
  cases hop : opcodeOf w with
  | add =>
    cases hmode : w.getLsbD 5 with
    | false =>
      exact ⟨⟨"ADD__register", 0xF020, 0x1000⟩, by decide, (row_bit5_iff .add false).mpr ⟨hop, hmode⟩,
        congrArg Instr.mnemonic (decode_addReg hop hmode)⟩
    | true =>
      exact ⟨⟨"ADD__immediate", 0xF020, 0x1020⟩, by decide, (row_bit5_iff .add true).mpr ⟨hop, hmode⟩,
        congrArg Instr.mnemonic (decode_addImm hop hmode)⟩
  | and =>
    cases hmode : w.getLsbD 5 with
    | false =>
      exact ⟨⟨"AND__register", 0xF020, 0x5000⟩, by decide, (row_bit5_iff .and false).mpr ⟨hop, hmode⟩,
        congrArg Instr.mnemonic (decode_andReg hop hmode)⟩
    | true =>
      exact ⟨⟨"AND__immediate", 0xF020, 0x5020⟩, by decide, (row_bit5_iff .and true).mpr ⟨hop, hmode⟩,
        congrArg Instr.mnemonic (decode_andImm hop hmode)⟩
  | jsr =>
    cases hmode : w.getLsbD 11 with
    | false =>
      exact ⟨⟨"JSRR", 0xF800, 0x4000⟩, by decide, (row_bit11_iff .jsr false).mpr ⟨hop, hmode⟩,
        congrArg Instr.mnemonic (decode_jsrr hop hmode)⟩
    | true =>
      exact ⟨⟨"JSR", 0xF800, 0x4800⟩, by decide, (row_bit11_iff .jsr true).mpr ⟨hop, hmode⟩,
        congrArg Instr.mnemonic (decode_jsr hop hmode)⟩
  | not =>
    exact ⟨⟨"NOT", 0xF000, 0x9000⟩, by decide, (row_iff .not).mpr hop, congrArg Instr.mnemonic (decode_not hop)⟩
  | br =>
    exact ⟨⟨"BR", 0xF000, 0x0000⟩, by decide, (row_iff .br).mpr hop, congrArg Instr.mnemonic (decode_br hop)⟩
  | jmp =>
    exact ⟨⟨"JMP", 0xF000, 0xC000⟩, by decide, (row_iff .jmp).mpr hop, congrArg Instr.mnemonic (decode_jmp hop)⟩
  | ld =>
    exact ⟨⟨"LD", 0xF000, 0x2000⟩, by decide, (row_iff .ld).mpr hop, congrArg Instr.mnemonic (decode_ld hop)⟩
  | ldi =>
    exact ⟨⟨"LDI", 0xF000, 0xA000⟩, by decide, (row_iff .ldi).mpr hop, congrArg Instr.mnemonic (decode_ldi hop)⟩
  | ldr =>
    exact ⟨⟨"LDR", 0xF000, 0x6000⟩, by decide, (row_iff .ldr).mpr hop, congrArg Instr.mnemonic (decode_ldr hop)⟩
  | lea =>
    exact ⟨⟨"LEA", 0xF000, 0xE000⟩, by decide, (row_iff .lea).mpr hop, congrArg Instr.mnemonic (decode_lea hop)⟩
  | st =>
    exact ⟨⟨"ST", 0xF000, 0x3000⟩, by decide, (row_iff .st).mpr hop, congrArg Instr.mnemonic (decode_st hop)⟩
  | sti =>
    exact ⟨⟨"STI", 0xF000, 0xB000⟩, by decide, (row_iff .sti).mpr hop, congrArg Instr.mnemonic (decode_sti hop)⟩
  | str =>
    exact ⟨⟨"STR", 0xF000, 0x7000⟩, by decide, (row_iff .str).mpr hop, congrArg Instr.mnemonic (decode_str hop)⟩
  | trap =>
    exact ⟨⟨"TRAP", 0xF000, 0xF000⟩, by decide, (row_iff .trap).mpr hop, congrArg Instr.mnemonic (decode_trap hop)⟩
  | rti =>
    exact ⟨⟨"RTI", 0xF000, 0x8000⟩, by decide, (row_iff .rti).mpr hop, congrArg Instr.mnemonic (decode_rti hop)⟩
  | res =>
    exact ⟨⟨"RES", 0xF000, 0xD000⟩, by decide, (row_iff .res).mpr hop, congrArg Instr.mnemonic (decode_res hop)⟩

/-- R79: the rows exclude one another: two different ones have different bits where both masks are set. -/
theorem opcodeTable_rows_disjoint :
    ∀ r ∈ opcodeTable, ∀ r' ∈ opcodeTable, r.pattern &&& r'.mask = r'.pattern &&& r.mask → r = r' := by
  decide

/-- Settles O4: the decoder's choice selects a row, and no two rows of the table agree where both masks are set. -/
theorem everyWordDecodesToItsOneTableRow : Obligations.EveryWordDecodesToItsOneTableRow := by
  intro w
  obtain ⟨r, hr, hsel, hmn⟩ := exists_row_of_decode w
  refine ⟨r, hr, (r.selects_iff w).mpr hsel, hmn, fun r' hr' hsel' => ?_⟩
  apply opcodeTable_rows_disjoint r' hr' r hr
  rw [← hsel, ← (r'.selects_iff w).mp hsel', BitVec.and_assoc, BitVec.and_assoc, BitVec.and_comm r.mask]

/-! ### The bits no field covers (R80) -/

section
variable {w x ignored : Word} (hx : x &&& ~~~ignored = 0)
include hx

/-- Flipping ignored bits leaves every field alone that holds none of them. -/
theorem field_xor_ignored {lo n : Nat} (h : field lo n ignored = 0) : field lo n (w ^^^ x) = field lo n w := by
  have hsub : x = x &&& ignored := by
    calc x = x &&& (ignored ||| ~~~ignored) := by rw [BitVec.or_not_self, BitVec.and_allOnes]
      _ = x &&& ignored := by rw [BitVec.and_or_distrib_left, hx]; exact BitVec.or_zero
  rw [field_xor, hsub, field_and, h]
  simp

theorem opcodeOf_xor_ignored (h : field 12 4 ignored = 0) : opcodeOf (w ^^^ x) = opcodeOf w :=
  congrArg Opcode.ofBits (field_xor_ignored hx h)

theorem getLsbD_xor_ignored {j : Nat} (h : field j 1 ignored = 0) : (w ^^^ x).getLsbD j = w.getLsbD j := by
  rw [getLsbD_eq_iff_field, field_xor_ignored hx h, field_one]

theorem fieldDr_xor_ignored (h : field 9 3 ignored = 0) : fieldDr (w ^^^ x) = fieldDr w :=
  congrArg Reg.ofBits (field_xor_ignored hx h)

theorem fieldSr1_xor_ignored (h : field 6 3 ignored = 0) : fieldSr1 (w ^^^ x) = fieldSr1 w :=
  congrArg Reg.ofBits (field_xor_ignored hx h)

theorem fieldSr2_xor_ignored (h : field 0 3 ignored = 0) : fieldSr2 (w ^^^ x) = fieldSr2 w :=
  congrArg Reg.ofBits (field_xor_ignored hx h)

end

/-- Settles O3: a word and the word with ignored bits flipped have the opcode, the mode bit and every field of the
row in common. -/
theorem uncoveredBitsAreIgnoredByDecode : Obligations.UncoveredBitsAreIgnoredByDecode := by
  intro w x
  refine ⟨fun h hx => ?_, fun h hx => ?_, fun h hx => ?_, fun h hx => ?_, fun h hx => ?_, fun h hx => ?_,
    fun h hx => ?_, fun h hx => ?_⟩
  · obtain ⟨hop, hmode⟩ := (row_bit5_iff .add false).mp h
    rw [decode_addReg hop hmode, decode_addReg ((opcodeOf_xor_ignored hx rfl).trans hop)
        ((getLsbD_xor_ignored hx rfl).trans hmode),
      fieldDr_xor_ignored hx rfl, fieldSr1_xor_ignored hx rfl, fieldSr2_xor_ignored hx rfl]
  · obtain ⟨hop, hmode⟩ := (row_bit5_iff .and false).mp h
    rw [decode_andReg hop hmode, decode_andReg ((opcodeOf_xor_ignored hx rfl).trans hop)
        ((getLsbD_xor_ignored hx rfl).trans hmode),
      fieldDr_xor_ignored hx rfl, fieldSr1_xor_ignored hx rfl, fieldSr2_xor_ignored hx rfl]
  · have hop := (row_iff .not).mp h
    rw [decode_not hop, decode_not ((opcodeOf_xor_ignored hx rfl).trans hop),
      fieldDr_xor_ignored hx rfl, fieldSr1_xor_ignored hx rfl]
  · have hop := (row_iff .jmp).mp h
    rw [decode_jmp hop, decode_jmp ((opcodeOf_xor_ignored hx rfl).trans hop), fieldSr1_xor_ignored hx rfl]
  · obtain ⟨hop, hmode⟩ := (row_bit11_iff .jsr false).mp h
    rw [decode_jsrr hop hmode, decode_jsrr ((opcodeOf_xor_ignored hx rfl).trans hop)
        ((getLsbD_xor_ignored hx rfl).trans hmode),
      fieldSr1_xor_ignored hx rfl]
  · have hop := (row_iff .trap).mp h
    rw [decode_trap hop, decode_trap ((opcodeOf_xor_ignored hx rfl).trans hop), field_xor_ignored hx rfl]
  · have hop := (row_iff .rti).mp h
    rw [decode_rti hop, decode_rti ((opcodeOf_xor_ignored hx rfl).trans hop)]
  · have hop := (row_iff .res).mp h
    rw [decode_res hop, decode_res ((opcodeOf_xor_ignored hx rfl).trans hop)]

/-! ### The customary spelling (R80), in the terms of fields -/

theorem IgnoredBits.obeyedBy_iff (l : IgnoredBits) (w : Word) :
    l.obeyedBy w = true ↔ (w &&& l.rowMask = l.rowMatch → w &&& l.ignored = l.customary) := by
  simp [IgnoredBits.obeyedBy, imp_iff_not_or]

/-- R80's table line by line: the fields that hold the customary value. -/
theorem customary_iff (w : Word) :
    customary w = true ↔
      (opcodeOf w = .add → w.getLsbD 5 = false → field 3 2 w = 0) ∧
      (opcodeOf w = .and → w.getLsbD 5 = false → field 3 2 w = 0) ∧
      (opcodeOf w = .not → field 0 6 w = 0x3F) ∧
      (opcodeOf w = .jmp → field 9 3 w = 0 ∧ field 0 6 w = 0) ∧
      (opcodeOf w = .jsr → w.getLsbD 11 = false → field 9 2 w = 0 ∧ field 0 6 w = 0) ∧
      (opcodeOf w = .trap → field 8 4 w = 0) ∧
      (opcodeOf w = .rti → field 0 12 w = 0) ∧
      (opcodeOf w = .res → field 0 12 w = 0) := by
  have hlines : customary w = true ↔
      (w &&& 0xF020 = 0x1000 → w &&& 0x0018 = 0) ∧ (w &&& 0xF020 = 0x5000 → w &&& 0x0018 = 0) ∧
      (w &&& 0xF000 = 0x9000 → w &&& 0x003F = 0x003F) ∧ (w &&& 0xF000 = 0xC000 → w &&& 0x0E3F = 0) ∧
      (w &&& 0xF800 = 0x4000 → w &&& 0x063F = 0) ∧ (w &&& 0xF000 = 0xF000 → w &&& 0x0F00 = 0) ∧
      (w &&& 0xF000 = 0x8000 → w &&& 0x0FFF = 0) ∧ (w &&& 0xF000 = 0xD000 → w &&& 0x0FFF = 0) := by
    simp [customary, ignoredBitsTable, IgnoredBits.obeyedBy_iff]
  have h43 : w &&& 0x0018 = 0 ↔ field 3 2 w = 0 := and_mask_eq_iff (lo := 3) (n := 2) 0 (by decide)
  rw [hlines]
  refine and_congr ?_ <| and_congr ?_ <| and_congr ?_ <| and_congr ?_ <| and_congr ?_ <| and_congr ?_ <|
    and_congr ?_ ?_
  · exact (imp_congr (row_bit5_iff .add false) h43).trans and_imp
  · exact (imp_congr (row_bit5_iff .and false) h43).trans and_imp
  · exact imp_congr (row_iff .not) (and_mask_eq_iff (lo := 0) (n := 6) 0x3F (by decide))
  · exact imp_congr (row_iff .jmp)
      (and_two_masks_eq_iff (hi := 9) (m := 3) (lo := 0) (n := 6) 0 0 (by decide) (by decide))
  · exact (imp_congr (row_bit11_iff .jsr false)
      (and_two_masks_eq_iff (hi := 9) (m := 2) (lo := 0) (n := 6) 0 0 (by decide) (by decide))).trans and_imp
  · exact imp_congr (row_iff .trap) (and_mask_eq_iff (lo := 8) (n := 4) 0 (by decide))
  · exact imp_congr (row_iff .rti) (and_mask_eq_iff (lo := 0) (n := 12) 0 (by decide))
  · exact imp_congr (row_iff .res) (and_mask_eq_iff (lo := 0) (n := 12) 0 (by decide))

/-- R92, R80: constructor by constructor, the fields no operand of the instruction stands in are customary. -/
theorem customary_encode (i : Instr) : customary (encode i) = true := by
  simp only [customary_iff, opcodeOf_encode, getLsbD_eq_iff_field]
  cases i <;> simp [Instr.opcode, encode]

/-! ### The encoder undoes the decoder -/

/-- The word with its bits below bit `lo` cleared. -/
def bitsFrom (lo : Nat) (w : Word) : Word := place lo (field lo (16 - lo) w)

theorem bitsFrom_getLsbD (lo : Nat) (w : Word) {j : Nat} (hj : j < 16) :
    (bitsFrom lo w).getLsbD j = (decide (lo ≤ j) && w.getLsbD j) := by
  unfold bitsFrom
  rw [place_getLsbD _ _ _ hj]
  by_cases h : lo ≤ j
  · rw [field_getLsbD _ _ _ _ (by omega), Nat.add_sub_cancel' h]
  · simp [h]

@[simp] theorem bitsFrom_zero (w : Word) : bitsFrom 0 w = w := by
  apply BitVec.eq_of_getLsbD_eq
  intro j hj
  simp [bitsFrom_getLsbD _ _ hj, - BitVec.getLsbD_eq_getElem]

/-- R78: from bit 12 on stands the opcode number. -/
theorem place_opcode {w : Word} {o : Opcode} (h : opcodeOf w = o) : place 12 o.bits = bitsFrom 12 w := by
  rw [← (opcodeOf_eq_iff w o).mp h]
  rfl

/-- The next field below completes the word down to that field's lowest bit. -/
theorem bitsFrom_or_place {w : Word} (hi lo : Nat) {n : Nat} {f : BitVec n} (hf : field lo n w = f) (h : hi = lo + n) :
    bitsFrom hi w ||| place lo f = bitsFrom lo w := by
  subst hf h
  apply BitVec.eq_of_getLsbD_eq
  intro j hj
  rw [BitVec.getLsbD_or, bitsFrom_getLsbD _ _ hj, bitsFrom_getLsbD _ _ hj, place_getLsbD _ _ _ hj]
  by_cases hlo : lo ≤ j
  · by_cases hn : j < lo + n
    · rw [field_getLsbD _ _ _ _ (by omega), Nat.add_sub_cancel' hlo]
      simp [hlo, Nat.not_le_of_lt hn]
    · simp [hlo, Nat.le_of_not_lt hn, BitVec.getLsbD_of_ge _ (j - lo) (show n ≤ j - lo by omega)]
  · simp [hlo, show ¬ lo + n ≤ j by omega]

/-- A field of zeros needs no placing. -/
theorem bitsFrom_of_zero {w : Word} (hi lo : Nat) {n : Nat} (hz : field lo n w = 0) (h : hi = lo + n) :
    bitsFrom hi w = bitsFrom lo w := by
  rw [← bitsFrom_or_place hi lo hz h]
  simp [place]

/-- R92, R80: the fields of a customary word, placed again, are the word. -/
theorem encode_decode {w : Word} (h : customary w = true) : encode (decode w) = w := by
  obtain ⟨hadd, hand, hnot, hjmp, hjsrr, htrap, hrti, hres⟩ := (customary_iff w).mp h
  cases hop : opcodeOf w with
  | add =>
    cases hmode : w.getLsbD 5 with
    | true =>
      have h5 := (getLsbD_eq_iff_field w 5 true).mp hmode
      rw [decode_addImm hop hmode]
      simp [encode, fieldDr, fieldSr1, place_opcode hop, bitsFrom_or_place, h5]
    | false =>
      have h5 := (getLsbD_eq_iff_field w 5 false).mp hmode
      rw [decode_addReg hop hmode]
      simp [encode, fieldDr, fieldSr1, fieldSr2, place_opcode hop, bitsFrom_or_place, h5,
        bitsFrom_of_zero 5 3 (hadd hop hmode)]
  | and =>
    cases hmode : w.getLsbD 5 with
    | true =>
      have h5 := (getLsbD_eq_iff_field w 5 true).mp hmode
      rw [decode_andImm hop hmode]
      simp [encode, fieldDr, fieldSr1, place_opcode hop, bitsFrom_or_place, h5]
    | false =>
      have h5 := (getLsbD_eq_iff_field w 5 false).mp hmode
      rw [decode_andReg hop hmode]
      simp [encode, fieldDr, fieldSr1, fieldSr2, place_opcode hop, bitsFrom_or_place, h5,
        bitsFrom_of_zero 5 3 (hand hop hmode)]
  | jsr =>
    cases hmode : w.getLsbD 11 with
    | true =>
      have h11 := (getLsbD_eq_iff_field w 11 true).mp hmode
      rw [decode_jsr hop hmode]
      simp [encode, place_opcode hop, bitsFrom_or_place, h11]
    | false =>
      have h11 := (getLsbD_eq_iff_field w 11 false).mp hmode
      obtain ⟨h9, h0⟩ := hjsrr hop hmode
      rw [decode_jsrr hop hmode]
      simp [encode, fieldSr1, place_opcode hop, bitsFrom_or_place, h11, bitsFrom_of_zero 11 9 h9,
        bitsFrom_of_zero 6 0 h0]
  | jmp =>
    obtain ⟨h9, h0⟩ := hjmp hop
    rw [decode_jmp hop]
    simp [encode, fieldSr1, place_opcode hop, bitsFrom_or_place, bitsFrom_of_zero 12 9 h9, bitsFrom_of_zero 6 0 h0]
  | not =>
    have h0 : field 0 6 w = 0x3F#6 := hnot hop
    rw [decode_not hop]
    simp [encode, fieldDr, fieldSr1, place_opcode hop, bitsFrom_or_place, h0]
  | br =>
    rw [decode_br hop]
    simp [encode, ← field_one, place_opcode hop, bitsFrom_or_place, - BitVec.getLsbD_eq_getElem]
  | trap =>
    rw [decode_trap hop]
    simp [encode, place_opcode hop, bitsFrom_or_place, bitsFrom_of_zero 12 8 (htrap hop)]
  | rti =>
    rw [decode_rti hop]
    simp [encode, place_opcode hop, bitsFrom_of_zero 12 0 (hrti hop)]
  | res =>
    rw [decode_res hop]
    simp [encode, place_opcode hop, bitsFrom_of_zero 12 0 (hres hop)]
  | ld =>
    rw [decode_ld hop]
    simp [encode, fieldDr, place_opcode hop, bitsFrom_or_place]
  | ldi =>
    rw [decode_ldi hop]
    simp [encode, fieldDr, place_opcode hop, bitsFrom_or_place]
  | ldr =>
    rw [decode_ldr hop]
    simp [encode, fieldDr, fieldSr1, place_opcode hop, bitsFrom_or_place]
  | lea =>
    rw [decode_lea hop]
    simp [encode, fieldDr, place_opcode hop, bitsFrom_or_place]
  | st =>
    rw [decode_st hop]
    simp [encode, fieldDr, place_opcode hop, bitsFrom_or_place]
  | sti =>
    rw [decode_sti hop]
    simp [encode, fieldDr, place_opcode hop, bitsFrom_or_place]
  | str =>
    rw [decode_str hop]
    simp [encode, fieldDr, fieldSr1, place_opcode hop, bitsFrom_or_place]

/-- Settles O2: the fields of a customary word determine it, and the encoder writes the customary value where no field
stands. -/
theorem encodeOfDecodeGivesCustomaryWordBack : Obligations.EncodeOfDecodeGivesCustomaryWordBack :=
  ⟨fun _ => encode_decode, customary_encode⟩

/-- Settles O5: each word, written out, runs through the decoder. -/
theorem sampleWordsDecodeAsWritten : Obligations.SampleWordsDecodeAsWritten := by
  unfold Obligations.SampleWordsDecodeAsWritten
  decide

end Sys2Proof
end

section
/-! PROOFS of the family other, the state: memory as data (R59), the invariant (R25, R29, R33) under every step and port
event, and what the host's ports do (R35 to R42, R217). -/

namespace Sys2Proof.Machine

/-! ### Writes to memory as data (R59) -/

theorem Memory.write_write_same {m : Memory} (hm : m.wf) (a v w : Word) : (m.write a v).write a w = m.write a w := by
  refine Memory.ext_read (Memory.wf_write (Memory.wf_write hm a v) a w) (Memory.wf_write hm a w) fun x => ?_
  simp only [Memory.read_write]
  split <;> rfl

theorem Memory.write_comm {m : Memory} (hm : m.wf) {a b : Word} (hab : a ≠ b) (v w : Word) :
    (m.write a v).write b w = (m.write b w).write a v := by
  refine Memory.ext_read (Memory.wf_write (Memory.wf_write hm a v) b w) (Memory.wf_write (Memory.wf_write hm b w) a v)
    fun x => ?_
  simp only [Memory.read_write]
  by_cases hb : x = b
  · rw [if_pos hb, if_neg (hb ▸ hab.symm), if_pos hb]
  · rw [if_neg hb, if_neg hb]

/-- Settles O9: canonical memories that read alike are equal, and a write leaves a canonical one. -/
theorem memWritesOverwriteAndCommute : Obligations.MemWritesOverwriteAndCommute := fun s a _ v w hm =>
  ⟨congrArg (fun m => { s with mem := m }) (Memory.write_write_same hm a v w),
    fun hab => congrArg (fun m => { s with mem := m }) (Memory.write_comm hm hab v w)⟩

/-! ### The invariant under an instruction and a step -/

/-- The invariant speaks of memory, COND and the fault marker only. -/
theorem State.Inv.of_same {s t : State} (h : s.Inv) (hmem : t.mem = s.mem) (hcond : t.cond = s.cond)
    (hfault : t.fault = s.fault) : t.Inv :=
  ⟨hmem ▸ h.mem, hcond ▸ h.cond, hfault ▸ h.fault⟩

theorem State.Inv.writeMem {s : State} (h : s.Inv) (a v : Word) : (s.writeMem a v).Inv :=
  ⟨Memory.wf_write h.mem a v, h.cond, h.fault⟩

theorem State.Inv.setCond {s : State} (h : s.Inv) {c : Word} (hc : CondReachable c) : (s.setCond c).Inv :=
  ⟨h.mem, hc, h.fault⟩

/-- R26: what `setcc` writes is one of the three patterns. -/
theorem condReachable_condOf (v : Word) : CondReachable (condOf v) := by
  rcases condOf_cases v with ⟨-, hc⟩ | ⟨-, hc⟩ | ⟨-, hc⟩ <;> rw [hc] <;> decide

theorem State.Inv.writeResult {s : State} (h : s.Inv) (dr : Reg) (v : Word) : (s.writeResult dr v).Inv :=
  ⟨h.mem, s.cond_writeResult dr v ▸ condReachable_condOf v, h.fault⟩

/-- R191: the marker a TRAP sets records an unsupported vector. -/
theorem execTrap_faultReachable {v : Byte} {s t : State} (hs : FaultReachable s.fault) (h : execTrap v s = .next t) :
    FaultReachable t.fault := by
  by_cases hv : v.toNat < 0x20 ∨ 0x25 < v.toNat
  · rcases execTrap_next_cases h with
      ⟨rfl, -⟩ | ⟨rfl, -⟩ | ⟨rfl | rfl | rfl, -⟩ | ⟨rfl, -⟩ | ⟨-, rfl⟩
    case inr.inr.inr.inr => exact .inr ⟨v, hv, rfl⟩
    all_goals exact absurd hv (by decide)
  · exact execTrap_fault h hv ▸ hs

theorem exec_keeps_inv {i : Instr} {s t : State} (hs : s.Inv) (h : exec i s = .next t) : t.Inv := by
  rcases exec_next_cases h with
    ⟨dr, v, -, -, -, -, rfl⟩ | ⟨a, v, -, -, -, rfl⟩ | ⟨target, -, -, -, rfl | ⟨-, rfl⟩⟩ | ⟨v, -, htrap⟩ |
    ⟨-, rfl⟩ | ⟨-, rfl⟩
  · exact hs.writeResult dr v
  · exact hs.writeMem a v
  · exact hs.of_same rfl rfl rfl
  · exact hs.of_same rfl rfl rfl
  · obtain ⟨-, hcond, hmem, -⟩ := execTrap_keeps htrap
    exact ⟨hmem ▸ hs.mem, hcond ▸ hs.cond, execTrap_faultReachable hs.fault htrap⟩
  · exact hs.of_same rfl rfl rfl
  · exact hs.of_same rfl rfl rfl

/-- Settles O47: a stopped machine keeps its state, and each shape of an instruction's effect keeps the invariant. -/
theorem stepKeepsTheInvariant : Obligations.StepKeepsTheInvariant := by
  intro s t hs h
  rcases step_next_cases h with ⟨-, rfl⟩ | ⟨-, hexec⟩
  · exact hs
  · exact exec_keeps_inv (hs.of_same rfl rfl rfl : s.afterFetch.Inv) hexec

/-- Settles O48: the reset memory is the empty list. -/
theorem resetMeetsTheInvariant : Obligations.ResetMeetsTheInvariant :=
  ⟨Memory.wf_nil, .inl rfl, .inl rfl⟩

/-! ### The host register port (R39) -/

/-- R20: the indices 0 to 7 are the numbers of the general registers. -/
theorem Reg.ofIndex_eq_some_iff (i : Nat) (r : Reg) : Reg.ofIndex i = some r ↔ i = r.bits.toNat := by
  constructor
  · intro h
    unfold Reg.ofIndex at h
    split at h <;> cases h <;> rfl
  · rintro rfl
    cases r <;> rfl

/-- The ten register-file indices: a general register's number, 8 or 9. -/
theorem hostIndex_cases {i : Nat} (h : i < 10) : (∃ r : Reg, i = r.bits.toNat) ∨ i = 8 ∨ i = 9 := by
  by_cases h8 : i < 8
  · refine .inl ⟨Reg.ofBits (BitVec.ofNat 3 i), ?_⟩
    rw [Reg.bits_ofBits, BitVec.toNat_ofNat, Nat.mod_eq_of_lt h8]
  · omega

section
variable (s : State) (r : Reg) (v : Word)

@[simp] theorem hostReadReg_general : s.hostReadReg r.bits.toNat = .ok (s.reg r) := by
  rw [State.hostReadReg, (Reg.ofIndex_eq_some_iff _ r).mpr rfl]

@[simp] theorem hostReadReg_pc : s.hostReadReg 8 = .ok s.pc := rfl
@[simp] theorem hostReadReg_cond : s.hostReadReg 9 = .ok s.cond := rfl

@[simp] theorem hostWriteReg_general : s.hostWriteReg r.bits.toNat v = .next (s.setReg r v) := by
  rw [State.hostWriteReg, (Reg.ofIndex_eq_some_iff _ r).mpr rfl]

@[simp] theorem hostWriteReg_pc : s.hostWriteReg 8 v = .next (s.setPc v) := rfl
@[simp] theorem hostWriteReg_cond : s.hostWriteReg 9 v = .next (s.setCond v) := rfl

end

/-- R28: from index 10 on there is no register. -/
theorem Reg.ofIndex_of_ge {i : Nat} (h : 10 ≤ i) : Reg.ofIndex i = none := by
  rw [Option.eq_none_iff_forall_ne_some]
  intro r hr
  have := (Reg.ofIndex_eq_some_iff i r).mp hr
  omega

theorem hostReadReg_refused (s : State) {i : Nat} (h : 10 ≤ i) :
    s.hostReadReg i = .error (.registerIndexOutOfRange i) := by
  simp [State.hostReadReg, Reg.ofIndex_of_ge h, show i ≠ 8 by omega, show i ≠ 9 by omega]

theorem hostWriteReg_refused (s : State) {i : Nat} (h : 10 ≤ i) (v : Word) :
    s.hostWriteReg i v = .refused (.registerIndexOutOfRange i) := by
  simp [State.hostWriteReg, Reg.ofIndex_of_ge h, show i ≠ 8 by omega, show i ≠ 9 by omega]

theorem State.quietSame_setReg (s : State) (r : Reg) (v : Word) : QuietSame s (s.setReg r v) :=
  ⟨halt_setReg s r v, fault_setReg s r v, input_setReg s r v, output_setReg s r v, events_setReg s r v⟩

/-- Two registers have different numbers. -/
theorem Reg.bits_toNat_ne {r r' : Reg} (h : r'.bits.toNat ≠ r.bits.toNat) : r' ≠ r := fun heq => h (heq ▸ rfl)

/-- R39: a host write of an index below 10 writes that register and nothing else. -/
theorem hostWriteReg_writesOne (s : State) {i : Nat} (hi : i < 10) (v : Word) :
    ∃ t, s.hostWriteReg i v = .next t ∧ t.hostReadReg i = .ok v ∧
      (∀ j, j < 10 → j ≠ i → t.hostReadReg j = s.hostReadReg j) ∧ MemSame s t ∧ QuietSame s t := by
  rcases hostIndex_cases hi with ⟨r, rfl⟩ | rfl | rfl
  · refine ⟨_, hostWriteReg_general s r v, by simp, fun j hj hne => ?_, s.readMem_setReg r v, s.quietSame_setReg r v⟩
    rcases hostIndex_cases hj with ⟨r', rfl⟩ | rfl | rfl
    · simp [Reg.bits_toNat_ne hne]
    · rfl
    · rfl
  · refine ⟨_, hostWriteReg_pc s v, rfl, fun j hj hne => ?_, s.readMem_setPc v, s.quietSame_setPc v⟩
    rcases hostIndex_cases hj with ⟨r', rfl⟩ | rfl | rfl
    · simp
    · exact absurd rfl hne
    · rfl
  · refine ⟨_, hostWriteReg_cond s v, rfl, fun j hj hne => ?_, s.readMem_setCond v, s.quietSame_setCond v⟩
    rcases hostIndex_cases hj with ⟨r', rfl⟩ | rfl | rfl
    · simp
    · rfl
    · exact absurd rfl hne

/-- Settles O52: the ten indices one by one, then the frame of a write, then the refusals. -/
theorem hostRegisterPortHasTenRegisters : Obligations.HostRegisterPortHasTenRegisters := fun s =>
  ⟨⟨rfl, rfl, rfl, rfl, rfl, rfl, rfl, rfl, rfl, rfl⟩, fun _ v =>
    ⟨fun hi => hostWriteReg_writesOne s hi v, fun hi => ⟨hostWriteReg_refused s hi v, hostReadReg_refused s hi⟩⟩⟩

/-! ### The loader (R40) -/

/-- A load leaves everything but memory alone. -/
theorem State.loadImage_eq (image : List Word) :
    ∀ (s : State) (a : Word), s.loadImage a image = { s with mem := (s.loadImage a image).mem } := by
  induction image with
  | nil => exact fun _ _ => rfl
  | cons w rest ih => exact fun s a => ih (s.writeMem a w) (a + 1)

theorem State.Inv.loadImage (image : List Word) : ∀ {s : State}, s.Inv → ∀ a : Word, (s.loadImage a image).Inv := by
  induction image with
  | nil => exact fun h _ => h
  | cons w rest ih => exact fun h a => ih (h.writeMem a w) (a + 1)

/-- Fewer than 65,536 words on from an address is another address. -/
theorem addr_ne_self (a : Word) {j : Nat} (h0 : 0 < j) (hj : j < 65536) : a + BitVec.ofNat 16 j ≠ a := fun h => by
  have hz : BitVec.ofNat 16 j = 0#16 := add_eq_left.mp h
  have : j % 65536 = 0 := by simpa using congrArg BitVec.toNat hz
  omega

/-- R40, R51: what memory holds after a load of at most 65,536 words, counted from the first address. -/
theorem State.readMem_loadImage (image : List Word) :
    ∀ (s : State) (a : Word), image.length ≤ 65536 → ∀ k, k < 65536 →
      (s.loadImage a image).readMem (a + BitVec.ofNat 16 k) =
        image[k]?.getD (s.readMem (a + BitVec.ofNat 16 k)) := by
  induction image with
  | nil => exact fun _ _ _ _ _ => rfl
  | cons w rest ih =>
    intro s a hlen k hk
    rw [List.length_cons] at hlen
    have hload := ih (s.writeMem a w) (a + 1) (by omega)
    cases k with
    | zero =>
      -- The first address is the last one the rest of the image, shorter than memory, could reach.
      have hself : a + 1 + BitVec.ofNat 16 65535 = a := by
        rw [addr_succ]
        exact BitVec.add_zero a
      have hread := hload 65535 (by omega)
      rw [List.getElem?_eq_none (by omega), hself, Option.getD_none, State.readMem_writeMem_same] at hread
      rw [show a + BitVec.ofNat 16 0 = a from BitVec.add_zero a]
      exact hread
    | succ k =>
      have hread := hload k (by omega)
      rw [addr_succ, State.readMem_writeMem_other _ _ _ _ (addr_ne_self a k.succ_pos hk)] at hread
      exact hread

/-! ### The launch state (R217) -/

theorem State.readMem_launch (image : List Word) (hlen : image.length ≤ 65536) {k : Nat} (hk : k < 65536) :
    (State.launch image).readMem (0x3000 + BitVec.ofNat 16 k) = image[k]?.getD 0 :=
  State.readMem_loadImage image State.reset 0x3000 hlen k hk

/-- Settles O53: the load changes memory only, and `init` the halt flag and PC. -/
theorem launchStateHoldsTheImage : Obligations.LaunchStateHoldsTheImage := by
  intro image hlen
  have hload := State.loadImage_eq image State.reset Config.startPc
  refine ⟨rfl, ?_, fun r => ?_, ?_, fun k hk => ?_, fun k hk hk' => ?_⟩
  · rw [State.running_iff]
    exact ⟨rfl, State.fault_loadImage image State.reset Config.startPc⟩
  · rw [State.launch, hload]
    cases r <;> rfl
  · rw [State.launch, hload]
    rfl
  · rw [State.readMem_launch image hlen (by omega), List.getElem?_eq_getElem hk, Option.getD_some]
  · rw [State.readMem_launch image hlen hk', List.getElem?_eq_none hk, Option.getD_none]

/-! ### The invariant under the port events -/

/-- R39: a host write keeps memory and the fault marker, and COND too unless it is one of index 9. -/
theorem hostWriteReg_keeps_inv {s t : State} {i : Nat} {v : Word} (hs : s.Inv) (hv : i = 9 → CondReachable v)
    (h : s.hostWriteReg i v = .next t) : t.Inv := by
  by_cases hi : i < 10
  · rcases hostIndex_cases hi with ⟨r, rfl⟩ | rfl | rfl
    · rw [hostWriteReg_general] at h
      cases h
      exact hs.of_same rfl rfl rfl
    · cases h
      exact hs.of_same rfl rfl rfl
    · cases h
      exact hs.setCond (hv rfl)
  · rw [hostWriteReg_refused s (Nat.le_of_not_lt hi)] at h
    cases h

/-- Settles O49: event by event. -/
theorem portEventsKeepTheInvariant : Obligations.PortEventsKeepTheInvariant := by
  intro e s t hs hv h
  cases e with
  | reset => cases h; exact resetMeetsTheInvariant.of_same rfl rfl rfl
  | init => cases h; exact hs.of_same rfl rfl rfl
  | step => exact stepKeepsTheInvariant s t hs h
  | forceHalt => cases h; exact hs.of_same rfl rfl rfl
  | writeReg i v => exact hostWriteReg_keeps_inv hs (fun hi => hv v (hi ▸ rfl)) h
  | writeMem a v => cases h; exact hs.writeMem a v
  | load a image => cases h; exact hs.loadImage image a
  | supplyInput bytes => cases h; exact hs.of_same rfl rfl rfl

/-! ### Reset, init, force halt (R35 to R37) -/

@[simp] theorem State.reg_reset (r : Reg) : State.reset.reg r = 0 := by cases r <;> rfl

/-- Settles O50: the fields of the reset state one by one. -/
theorem resetLeavesEverythingZeroAndHalted : Obligations.ResetLeavesEverythingZeroAndHalted :=
  ⟨State.reg_reset, rfl, rfl, fun _ => rfl, rfl, rfl⟩

/-- Settles O54: `applyReset` takes the core's fields from the reset state and the host's from the machine. -/
theorem resetEventClearsAnyMachine : Obligations.ResetEventClearsAnyMachine := fun _ =>
  ⟨_, rfl, State.reg_reset, rfl, rfl, fun _ => rfl, rfl, rfl, rfl, rfl, rfl⟩

/-- R36: against the machine with the halt flag cleared, `init` moves PC only. -/
theorem State.transfersOnly_applyInit (s : State) : TransfersOnly [] 0x3000 { s with halt := false } s.applyInit :=
  State.transfersOnly_setPc { s with halt := false } 0x3000

/-- R37: `force_halt` sets the halt flag and moves nothing. -/
theorem State.transfersOnly_forceHalt (s : State) : TransfersOnly [] s.pc { s with halt := true } s.forceHalt :=
  State.transfersOnly_setPc { s with halt := true } s.pc

/-- Settles O51: the whole effect of each of the two. -/
theorem initAndForceHaltChangeOnlyTheirFields : Obligations.InitAndForceHaltChangeOnlyTheirFields := fun s =>
  ⟨⟨_, rfl, rfl, s.transfersOnly_applyInit⟩, ⟨_, rfl, rfl, s.transfersOnly_forceHalt⟩⟩

end Sys2Proof.Machine
end

section
/-! PROOFS of the family other, the instructions and the step: BR and JSRR (R151, R155), TRAP and its services (R165 to
R178), RTI and RES (R175, R176), and the outcomes of a step (R100 to R106, R62, R112). -/

namespace Sys2Proof.Machine

/-! ### BR and JSRR -/

/-- R151 in the terms of the statements. -/
theorem branchTaken_iff (n z p : Bool) (c : Word) :
    branchTaken n z p c = true ↔ (n = true ∧ c = 4) ∨ (z = true ∧ c = 2) ∨ (p = true ∧ c = 1) := by
  simp [branchTaken, condNeg, condZro, condPos, or_assoc]

/-- R151: a taken BR moves PC by the offset. -/
theorem exec_br_taken {n z p : Bool} {s : State} (h : branchTaken n z p s.cond = true) (off9 : BitVec 9) :
    exec (.br n z p off9) s = .next (s.setPc (s.pc + off9.signExtend 16)) := by
  rw [← State.pcRelative_eq]
  exact if_pos h

/-- R151: a BR that is not taken changes nothing, so PC stays the advanced one. -/
theorem exec_br_not_taken {n z p : Bool} {s : State} (h : ¬ branchTaken n z p s.cond = true) (off9 : BitVec 9) :
    exec (.br n z p off9) s = .next (s.setPc s.pc) :=
  if_neg h

/-- Settles O22: the branch test says whether PC moves. -/
theorem brIsTakenIffItsConditionHolds : Obligations.BrIsTakenIffItsConditionHolds := by
  refine ⟨fun w => decode_br, fun s n z p off9 _ => ?_⟩
  simp only [← branchTaken_iff]
  by_cases h : branchTaken n z p s.cond = true
  · exact ⟨_, exec_br_taken h off9, fun _ => s.transfersOnly_setPc _, fun hn => absurd h hn⟩
  · exact ⟨_, exec_br_not_taken h off9, fun ht => absurd ht h, fun _ => s.transfersOnly_setPc _⟩

/-- Settles O23: each condition bit asks for one of the three patterns. -/
theorem brIsNotTakenOutsideTheThreePatterns : Obligations.BrIsNotTakenOutsideTheThreePatterns := by
  intro s n z p off9 h1 h2 h4
  have h : ¬ branchTaken n z p s.cond = true := by
    rw [branchTaken_iff]
    rintro (⟨-, h⟩ | ⟨-, h⟩ | ⟨-, h⟩)
    · exact h4 h
    · exact h2 h
    · exact h1 h
  exact ⟨_, exec_br_not_taken h off9, s.transfersOnly_setPc _⟩

theorem State.reg_link (s : State) (r : Reg) : s.link.reg r = if r = .r7 then s.pc else s.reg r :=
  State.reg_setReg s .r7 r s.pc

/-- Settles O26: the base is read after the link, which has replaced R7. -/
theorem jsrrLinksThenJumpsToTheBase : Obligations.JsrrLinksThenJumpsToTheBase := by
  refine ⟨fun w => decode_jsrr, fun s base => ?_⟩
  rw [← State.reg_link]
  exact ⟨_, exec_jsrr base s, s.reg_r7_link_setPc _, s.transfersOnly_link_setPc _⟩

/-! ### RTI and RES -/

theorem exec_rti (s : State) : exec .rti s = .next (s.emitEvent (.unimplemented .rti)) := rfl

theorem exec_res (s : State) : exec .res s = .next (s.emitEvent (.unimplemented .res)) := rfl

/-- Settles O38: against the machine with the diagnostic already in its record, nothing changes. -/
theorem rtiAndResAreNoOpsWithADiagnostic : Obligations.RtiAndResAreNoOpsWithADiagnostic := by
  refine ⟨fun w => decode_rti, fun w => decode_res, fun s => ⟨⟨_, exec_rti s, rfl, ?_⟩, ⟨_, exec_res s, rfl, ?_⟩⟩⟩
  · exact State.transfersOnly_setPc (s.emitEvent _) s.pc
  · exact State.transfersOnly_setPc (s.emitEvent _) s.pc

/-! ### What each TRAP answers, in the rules' own terms -/

/-- R168. -/
theorem exec_trap_getc {s : State} {c : Byte} {rest : List Byte} (h : s.input = c :: rest) :
    exec (.trap 0x20) s = .next ((s.link.setInput rest).setReg .r0 (zext8 c)) := by
  show serviceGetc s.link = _
  rw [serviceGetc, State.input_link, h]

/-- R171. -/
theorem exec_trap_in {s : State} {c : Byte} {rest : List Byte} (h : s.input = c :: rest) :
    exec (.trap 0x23) s =
      .next (((s.link.emitOut (Config.inPrompt ++ [c])).setInput rest).setReg .r0 (zext8 c)) := by
  show serviceIn s.link = _
  rw [serviceIn, State.input_link, h]

/-- R170: the scan reads the memory and R0 of the state before the link. -/
theorem exec_trap_puts (s : State) :
    exec (.trap 0x22) s = s.link.emitString (putsBytes 65536 s.mem (s.reg .r0)) := by
  rw [← State.reg_link_r0, ← State.mem_link]
  rfl

/-- R173. -/
theorem exec_trap_halt (s : State) : exec (.trap 0x25) s = .next (s.link.setHalt true) := rfl

/-- R174. -/
theorem exec_trap_unsupported (s : State) {v : Byte} (hv : v.toNat < 0x20 ∨ 0x25 < v.toNat) :
    exec (.trap v) s = .next (s.link.raiseFatal (.unsupportedTrapVector v)) := by
  show execTrap v s = _
  rw [execTrap, (TrapService.ofVector_eq_none_iff v).mpr hv]

/-- R165, R177: the frame of every TRAP that answers a next state. -/
theorem exec_trap_linksOnly {v : Byte} {s t : State} (h : exec (.trap v) s = .next t) :
    TrapLinksOnly (if v = 0x20 ∨ v = 0x23 then [.r0] else []) s t := by
  obtain ⟨hpc, hcond, hmem, -⟩ := execTrap_keeps h
  refine ⟨execTrap_reg_r7 h, ?_, hpc, hcond, fun a => congrArg (Memory.read · a) hmem⟩
  rw [← regsWritten_trap]
  exact execTrap_regsSameBut h

/-- Settles O28, from what GETC answers and the frame of a TRAP. -/
theorem trapGetcReadsOneByteIntoR0 : Obligations.TrapGetcReadsOneByteIntoR0 := fun _ _ _ h =>
  have hexec := exec_trap_getc h
  ⟨_, hexec, rfl, rfl, rfl, exec_trap_linksOnly hexec, rfl, rfl, rfl⟩

/-- Settles O30: the scan stops at the first zero word, which 65,536 words are enough to reach. -/
theorem trapPutsWritesUpToTheFirstZeroWord : Obligations.TrapPutsWritesUpToTheFirstZeroWord := by
  intro s k hk hne hz
  refine exec_emitsOnly ?_
  rw [exec_trap_puts, putsBytes_of_terminator 65536 k s.mem (s.reg .r0) hk hne hz]
  rfl

/-- Settles O31, from what IN answers and the frame of a TRAP. -/
theorem trapInPromptsReadsAndEchoes : Obligations.TrapInPromptsReadsAndEchoes := fun _ _ _ h =>
  have hexec := exec_trap_in h
  ⟨_, hexec, rfl, rfl, (List.append_assoc _ _ _).symm, exec_trap_linksOnly hexec, rfl, rfl, rfl⟩

/-- R100: the gate. -/
theorem step_of_not_running {s : State} (h : ¬ s.running = true) : step s = .next s := if_neg h

/-- Settles O43: a halted or faulted machine is not running. -/
theorem stoppedMachineStepsToItself : Obligations.StoppedMachineStepsToItself := by
  intro s h
  refine step_of_not_running ?_
  rw [State.running_iff]
  rintro ⟨hhalt, hfault⟩
  rcases h with h | h
  · rw [hhalt] at h
    cases h
  · exact h hfault

/-- Settles O33, from what HALT answers, the frame of a TRAP, and the gate of R100. -/
theorem trapHaltSetsTheHaltFlag : Obligations.TrapHaltSetsTheHaltFlag := fun s =>
  have hexec := exec_trap_halt s
  ⟨_, hexec, rfl, exec_trap_linksOnly hexec, rfl, rfl, rfl, rfl, stoppedMachineStepsToItself _ (.inl rfl)⟩

/-- Settles O34: nothing follows the link but the write of the fault marker. -/
theorem trapUnsupportedVectorSetsTheFaultMarker : Obligations.TrapUnsupportedVectorSetsTheFaultMarker := fun s _ hv =>
  have hexec := exec_trap_unsupported s hv
  ⟨_, hexec, rfl, ⟨s.reg_link_r7, s.regsSameBut_link, rfl, rfl, s.readMem_link⟩, rfl, rfl, rfl, rfl⟩

/-- Settles O35, from the decoder's equation and the frame of a TRAP. -/
theorem trapWritesTheLinkForEveryVector : Obligations.TrapWritesTheLinkForEveryVector := by
  refine ⟨fun w => decode_trap, fun v s t h => ?_⟩
  obtain ⟨hlink, -, hpc, hcond, hmem⟩ := exec_trap_linksOnly h
  exact ⟨hlink, hpc, hcond, hmem⟩

/-! ### When an instruction has no next state (R106, R167, R178) -/

/-- The instruction has no next state, and why. -/
inductive Stuck (s : State) : Instr → Fault → Prop where
  | getc (h : s.input = []) : Stuck s (.trap 0x20) .consoleInputEmpty
  | in_ (h : s.input = []) : Stuck s (.trap 0x23) .consoleInputEmpty
  | puts (h : ∀ a : Word, s.readMem a ≠ 0) : Stuck s (.trap 0x22) .stringUnterminated
  | putsp (h : ∀ a : Word, (s.readMem a).extractLsb' 0 8 ≠ 0#8 ∧ (s.readMem a).extractLsb' 8 8 ≠ 0#8) :
      Stuck s (.trap 0x24) .stringUnterminated

/-- R178: PUTS scans for ever iff no word of memory is zero. -/
theorem putsBytes_eq_none_iff_forall (s : State) (a : Word) :
    putsBytes 65536 s.mem a = none ↔ ∀ b : Word, s.readMem b ≠ 0 :=
  (putsBytes_eq_none_iff _ _ _).trans (forall_addr_iff (fun b => s.readMem b ≠ 0) a)

/-- R178: PUTSP scans for ever iff no byte of memory is zero. -/
theorem putspBytes_eq_none_iff_forall (s : State) (a : Word) :
    putspBytes 65536 s.mem a = none ↔
      ∀ b : Word, (s.readMem b).extractLsb' 0 8 ≠ 0#8 ∧ (s.readMem b).extractLsb' 8 8 ≠ 0#8 :=
  (putspBytes_eq_none_iff _ _ _).trans
    (forall_addr_iff (fun b => (s.readMem b).extractLsb' 0 8 ≠ 0#8 ∧ (s.readMem b).extractLsb' 8 8 ≠ 0#8) a)

theorem exec_of_stuck {s : State} {i : Instr} {r : Fault} (h : Stuck s i r) : exec i s = .fault r := by
  cases h with
  | getc h =>
    show serviceGetc s.link = _
    rw [serviceGetc, State.input_link, h]
  | in_ h =>
    show serviceIn s.link = _
    rw [serviceIn, State.input_link, h]
  | puts h =>
    rw [exec_trap_puts, (putsBytes_eq_none_iff_forall s _).mpr h]
    rfl
  | putsp h =>
    rw [exec_trap_putsp, (putspBytes_eq_none_iff_forall s _).mpr h]
    rfl

/-- The end of PUTS and PUTSP is a next state unless the scan met no terminator. -/
theorem State.emitString_next_or_none (s : State) (bytes : Option (List Byte)) :
    (∃ t, s.emitString bytes = .next t) ∨ bytes = none := by
  cases bytes with
  | none => exact .inr rfl
  | some bs => exact .inl ⟨_, rfl⟩

/-- R106: every instruction answers a next state or is stuck; none is refused. -/
theorem exec_next_or_stuck (i : Instr) (s : State) : (∃ t, exec i s = .next t) ∨ ∃ r, Stuck s i r := by
  cases hsys : isSystem i with
  | false => exact .inl (exec_answers_next s hsys)
  | true =>
    cases i with
    | rti => exact .inl ⟨_, exec_rti s⟩
    | res => exact .inl ⟨_, exec_res s⟩
    | trap v =>
      cases hv : TrapService.ofVector v with
      | none => exact .inl ⟨_, exec_trap_unsupported s ((TrapService.ofVector_eq_none_iff v).mp hv)⟩
      | some service =>
        obtain rfl := TrapService.eq_vector_of_ofVector hv
        cases service with
        | out => exact .inl ⟨_, exec_trap_out s⟩
        | halt => exact .inl ⟨_, exec_trap_halt s⟩
        | getc =>
          cases hin : s.input with
          | nil => exact .inr ⟨_, .getc hin⟩
          | cons c rest => exact .inl ⟨_, exec_trap_getc hin⟩
        | in_ =>
          cases hin : s.input with
          | nil => exact .inr ⟨_, .in_ hin⟩
          | cons c rest => exact .inl ⟨_, exec_trap_in hin⟩
        | puts =>
          exact (s.link.emitString_next_or_none _).imp (fun ⟨t, ht⟩ => ⟨t, (exec_trap_puts s).trans ht⟩)
            fun hnone => ⟨_, .puts ((putsBytes_eq_none_iff_forall s _).mp hnone)⟩
        | putsp =>
          exact (s.link.emitString_next_or_none _).imp (fun ⟨t, ht⟩ => ⟨t, (exec_trap_putsp s).trans ht⟩)
            fun hnone => ⟨_, .putsp ((putspBytes_eq_none_iff_forall s _).mp hnone)⟩
    | _ => cases hsys

theorem exec_eq_fault_iff (i : Instr) (s : State) (r : Fault) : exec i s = .fault r ↔ Stuck s i r := by
  refine ⟨fun h => ?_, exec_of_stuck⟩
  rcases exec_next_or_stuck i s with ⟨t, ht⟩ | ⟨r', hr'⟩
  · rw [h] at ht
    cases ht
  · have := exec_of_stuck hr'
    rw [h] at this
    cases this
    exact hr'

theorem exec_ne_refused (i : Instr) (s : State) (r : Refusal) : exec i s ≠ .refused r := by
  rcases exec_next_or_stuck i s with ⟨t, ht⟩ | ⟨r', hr'⟩
  · rw [ht]
    nofun
  · rw [exec_of_stuck hr']
    nofun

theorem stuck_consoleInputEmpty_iff (s : State) (i : Instr) :
    Stuck s i .consoleInputEmpty ↔ (i = .trap 0x20 ∨ i = .trap 0x23) ∧ s.input = [] := by
  constructor
  · rintro (hin | hin)
    · exact ⟨.inl rfl, hin⟩
    · exact ⟨.inr rfl, hin⟩
  · rintro ⟨rfl | rfl, hin⟩
    · exact .getc hin
    · exact .in_ hin

theorem stuck_stringUnterminated_iff (s : State) (i : Instr) :
    Stuck s i .stringUnterminated ↔
      (i = .trap 0x22 ∧ ∀ a : Word, s.readMem a ≠ 0) ∨
      (i = .trap 0x24 ∧ ∀ a : Word, (s.readMem a).extractLsb' 0 8 ≠ 0#8 ∧ (s.readMem a).extractLsb' 8 8 ≠ 0#8) := by
  constructor
  · rintro (_ | _ | hmem | hmem)
    · exact .inl ⟨rfl, hmem⟩
    · exact .inr ⟨rfl, hmem⟩
  · rintro (⟨rfl, hmem⟩ | ⟨rfl, hmem⟩)
    · exact .puts hmem
    · exact .putsp hmem

/-- Settles O36: each service is stuck exactly as its constructor of `Stuck` says. -/
theorem trapServicesStopOnlyWithoutInputOrTerminator : Obligations.TrapServicesStopOnlyWithoutInputOrTerminator := by
  intro s
  simp only [exec_eq_fault_iff, stuck_consoleInputEmpty_iff, stuck_stringUnterminated_iff]
  simp

/-! ### The step -/

/-- Settles O42: the state the instruction executes in is `afterFetch`. -/
theorem stepFetchesAdvancesAndExecutes : Obligations.StepFetchesAdvancesAndExecutes := fun s hhalt hfault =>
  ⟨s.afterFetch, step_of_running (s.running_iff.mpr ⟨hhalt, hfault⟩), rfl, rfl, fun _ => rfl, rfl, rfl, rfl, rfl,
    rfl, rfl⟩

/-- R174, R191: only a TRAP with an unsupported vector sets the fault marker, and it records that vector. -/
theorem exec_sets_fault {i : Instr} {s t : State} {e : FatalError} (h : exec i s = .next t) (hs : s.fault = none)
    (ht : t.fault = some e) :
    ∃ v : Byte, (v.toNat < 0x20 ∨ 0x25 < v.toNat) ∧ i = .trap v ∧ e = .unsupportedTrapVector v := by
  by_cases hi : ∃ v : Byte, (v.toNat < 0x20 ∨ 0x25 < v.toNat) ∧ i = .trap v
  · obtain ⟨v, hv, rfl⟩ := hi
    rw [exec_trap_unsupported s hv] at h
    cases h
    exact ⟨v, hv, rfl, (Option.some.inj ht).symm⟩
  · rw [exec_fault h fun v hv hiv => hi ⟨v, hv, hiv⟩, hs] at ht
    cases ht

/-- Settles O44: the outcomes of the decoded instruction, on a state whose halt flag is false and marker none. -/
theorem stepOutcomesAreExactlyAsListed : Obligations.StepOutcomesAreExactlyAsListed := by
  intro s hrun
  obtain ⟨hhalt, hfault⟩ := s.running_iff.mp hrun
  rw [step_of_running hrun]
  generalize decode (s.readMem s.pc) = i
  refine ⟨exec_ne_refused i _, ?_, ?_, fun t h => ⟨⟨fun ht => ?_, ?_⟩, fun e => ⟨fun he => ?_, ?_⟩⟩⟩
  · exact (exec_eq_fault_iff _ _ _).trans (stuck_consoleInputEmpty_iff _ _)
  · exact (exec_eq_fault_iff _ _ _).trans (stuck_stringUnterminated_iff _ _)
  · by_contra hi
    rw [exec_halt h hi, State.halt_afterFetch, hhalt] at ht
    cases ht
  · rintro rfl
    rw [exec_trap_halt] at h
    cases h
    rfl
  · exact exec_sets_fault h hfault he
  · rintro ⟨v, hv, rfl, rfl⟩
    rw [exec_trap_unsupported _ hv] at h
    cases h
    rfl

/-- Settles O41: per instruction, the PC its answer leaves. -/
theorem pcAtTheEndOfAStepIsAsTheTableSays : Obligations.PcAtTheEndOfAStepIsAsTheTableSays := by
  intro s t hrun h
  rw [step_of_running hrun] at h
  generalize decode (s.readMem s.pc) = i at h ⊢
  cases i with
  | br n z p off9 =>
    show t.pc = if branchTaken n z p s.afterFetch.cond = true then s.afterFetch.pc + off9.signExtend 16
      else s.afterFetch.pc
    split
    · rw [exec_br_taken ‹_›] at h
      cases h
      rfl
    · rw [exec_br_not_taken ‹_›] at h
      cases h
      rfl
  | jmp base => cases h; rfl
  | jsr off11 =>
    rw [exec_jsr] at h
    cases h
    rfl
  | jsrr base =>
    cases h
    exact ⟨rfl, fun hbase => s.afterFetch.reg_link_other base hbase⟩
  | trap v =>
    obtain ⟨hpc, -⟩ := execTrap_keeps h
    exact hpc
  | addReg _ _ _ | addImm _ _ _ | andReg _ _ _ | andImm _ _ _ | not _ _ => cases h; rfl
  | ld _ _ | ldi _ _ | ldr _ _ _ | lea _ _ => cases h; rfl
  | st _ _ | sti _ _ | str _ _ _ => cases h; rfl
  | rti | res => cases h; rfl

/-- R136 to R138: what ST, STI and STR answer. -/
theorem exec_store {i : Instr} {sr : Reg} {s : State} {a : Word}
    (hi : (∃ off9, i = .st sr off9) ∨ (∃ off9, i = .sti sr off9) ∨ ∃ base off6, i = .str sr base off6)
    (ha : storeAddress i s = some a) : exec i s = .next (s.writeMem a (s.reg sr)) := by
  rcases hi with ⟨off9, rfl⟩ | ⟨off9, rfl⟩ | ⟨base, off6, rfl⟩ <;> cases ha <;> rfl

/-- Settles O45: the step leaves PC at the address it stored to. -/
theorem storedWordIsFetchedByTheNextStep : Obligations.StoredWordIsFetchedByTheNextStep := by
  intro s i sr hrun hdec hi haddr
  have hstep : step s = .next (s.afterFetch.writeMem (s.pc + 1) (s.reg sr)) := by
    rw [step_of_running hrun, hdec]
    exact exec_store hi haddr
  have hrun' : (s.afterFetch.writeMem (s.pc + 1) (s.reg sr)).running = true := hrun
  have hfetch : (s.afterFetch.writeMem (s.pc + 1) (s.reg sr)).fetchWord = s.reg sr :=
    State.readMem_writeMem_same _ _ _
  refine ⟨_, hstep, hrun', hfetch, ?_⟩
  rw [step_of_running hrun']
  exact congrArg (fun w => exec (decode w) _) hfetch

/-! ### What a TRAP does not see (R177, R112) -/

/-- The change `f` of the state touches nothing a TRAP reads, and keeps out of the way of what a TRAP writes. -/
structure UnseenByTrap (f : State → State) : Prop where
  input : ∀ s, (f s).input = s.input
  mem : ∀ s, (f s).mem = s.mem
  r0 : ∀ s, (f s).reg .r0 = s.reg .r0
  link : ∀ s, (f s).link = f s.link
  setR0 : ∀ s v, (f s).setReg .r0 v = f (s.setReg .r0 v)
  setInput : ∀ s bs, (f s).setInput bs = f (s.setInput bs)
  emitOut : ∀ s bs, (f s).emitOut bs = f (s.emitOut bs)
  setHalt : ∀ s b, (f s).setHalt b = f (s.setHalt b)
  raiseFatal : ∀ s e, (f s).raiseFatal e = f (s.raiseFatal e)

section
variable {f : State → State} (hf : UnseenByTrap f)
include hf

theorem UnseenByTrap.emitString (s : State) (bytes : Option (List Byte)) :
    (f s).emitString bytes = mapNext f (s.emitString bytes) := by
  cases bytes with
  | none => rfl
  | some bs => exact congrArg Host.Outcome.next (hf.emitOut s bs)

/-- A TRAP has the same outcome with a change it does not see, and the change is still there. -/
theorem UnseenByTrap.execTrap (v : Byte) (s : State) : execTrap v (f s) = mapNext f (execTrap v s) := by
  unfold Machine.execTrap
  rw [hf.link]
  cases TrapService.ofVector v with
  | none => exact congrArg Host.Outcome.next (hf.raiseFatal _ _)
  | some service =>
    cases service with
    | getc =>
      simp only [serviceGetc, hf.input]
      cases s.link.input with
      | nil => rfl
      | cons c rest => simp only [hf.setInput, hf.setR0]; rfl
    | in_ =>
      simp only [serviceIn, hf.input]
      cases s.link.input with
      | nil => rfl
      | cons c rest => simp only [hf.emitOut, hf.setInput, hf.setR0]; rfl
    | out => simp only [serviceOut, hf.r0, hf.emitOut]; rfl
    | puts => simp only [servicePuts, hf.mem, hf.r0, hf.emitString]
    | putsp => simp only [servicePutsp, hf.mem, hf.r0, hf.emitString]
    | halt => exact congrArg Host.Outcome.next (hf.setHalt _ _)

end

/-- Writes of two different registers commute. -/
theorem State.setReg_comm (s : State) {r r' : Reg} (h : r ≠ r') (v w : Word) :
    (s.setReg r v).setReg r' w = (s.setReg r' w).setReg r v := by
  refine congrArg (fun g => { s with regs := g }) (RegFile.ext_get _ _ fun q => ?_)
  simp only [State.regs_setReg, RegFile.get_set]
  by_cases hq : q = r
  · rw [if_neg (hq ▸ h), if_pos hq, if_pos hq]
  · rw [if_neg hq, if_neg hq]

theorem unseenByTrap_setReg {r : Reg} (h0 : r ≠ .r0) (h7 : r ≠ .r7) (x : Word) : UnseenByTrap (·.setReg r x) where
  input _ := rfl
  mem _ := rfl
  r0 s := s.reg_setReg_other r .r0 x h0.symm
  link s := s.setReg_comm h7 x s.pc
  setR0 s v := s.setReg_comm h0 x v
  setInput _ _ := rfl
  emitOut _ _ := rfl
  setHalt _ _ := rfl
  raiseFatal _ _ := rfl

/-- Settles O37: a write of one of R1 to R6 is a change a TRAP does not see. -/
theorem trapNeitherReadsNorWritesR1ToR6 : Obligations.TrapNeitherReadsNorWritesR1ToR6 := fun v s _ x h0 h7 =>
  (unseenByTrap_setReg h0 h7 x).execTrap v s

/-! ### The past does not influence a step (R112) -/

theorem State.emitEvent_withPast (es : List ObserverEvent) (bs : List Byte) (s : State) (e : ObserverEvent) :
    (s.withPast es bs).emitEvent e = (s.emitEvent e).withPast es bs :=
  congrArg (fun l => { s.withPast es bs with events := l }) (List.append_assoc es s.events [e])

theorem State.emitOut_withPast (es : List ObserverEvent) (bs : List Byte) (s : State) (bytes : List Byte) :
    (s.withPast es bs).emitOut bytes = (s.emitOut bytes).withPast es bs :=
  congrArg (fun l => { s.withPast es bs with output := l }) (List.append_assoc bs s.output bytes)

theorem unseenByTrap_withPast (es : List ObserverEvent) (bs : List Byte) : UnseenByTrap (State.withPast es bs) where
  input _ := rfl
  mem _ := rfl
  r0 _ := rfl
  link _ := rfl
  setR0 _ _ := rfl
  setInput _ _ := rfl
  emitOut := State.emitOut_withPast es bs
  setHalt _ _ := rfl
  raiseFatal _ _ := rfl

/-- No instruction reads the event record or the console output. -/
theorem exec_withPast (es : List ObserverEvent) (bs : List Byte) (i : Instr) (s : State) :
    exec i (s.withPast es bs) = mapNext (State.withPast es bs) (exec i s) := by
  cases i with
  | br n z p off9 =>
    by_cases h : branchTaken n z p s.cond = true
    · rw [exec_br_taken h, exec_br_taken (s := s.withPast es bs) h]
      rfl
    · rw [exec_br_not_taken h, exec_br_not_taken (s := s.withPast es bs) h]
      rfl
  | trap v => exact (unseenByTrap_withPast es bs).execTrap v s
  | rti => exact congrArg Host.Outcome.next (s.emitEvent_withPast es bs _)
  | res => exact congrArg Host.Outcome.next (s.emitEvent_withPast es bs _)
  | addReg _ _ _ | addImm _ _ _ | andReg _ _ _ | andImm _ _ _ | not _ _ => rfl
  | ld _ _ | ldi _ _ | ldr _ _ _ | lea _ _ | st _ _ | sti _ _ | str _ _ _ => rfl
  | jmp _ | jsr _ | jsrr _ => rfl

/-- The fetch adds its event behind the past. -/
theorem State.afterFetch_withPast (es : List ObserverEvent) (bs : List Byte) (s : State) :
    (s.withPast es bs).afterFetch = s.afterFetch.withPast es bs :=
  congrArg (State.setPc · (s.pc + 1)) (s.emitEvent_withPast es bs (.fetch s.pc s.fetchWord))

/-- Settles O46: neither the gate, nor the fetch, nor an instruction reads the past. -/
theorem pastEventsAndOutputDoNotInfluenceAStep : Obligations.PastEventsAndOutputDoNotInfluenceAStep := by
  intro es bs s
  by_cases hrun : s.running = true
  · rw [step_of_running hrun, step_of_running (s := s.withPast es bs) hrun, State.afterFetch_withPast]
    exact exec_withPast es bs _ _
  · rw [step_of_not_running hrun, step_of_not_running (s := s.withPast es bs) hrun]
    rfl

end Sys2Proof.Machine
end

section
/-! PROOFS of the family other, the run: how a run ends (R110), that a set fault marker stays (R33), and the driver's
loop (R109). -/

namespace Sys2Proof.Machine

/-! ### The fault marker stays (R33) -/

/-- R33, R100: a step of a faulted machine changes nothing, so it keeps the marker. -/
theorem step_keeps_fault {s t : State} (hs : s.fault ≠ none) (h : step s = .next t) : t.fault = s.fault := by
  rw [stoppedMachineStepsToItself s (.inr hs)] at h
  cases h
  rfl

theorem port_keeps_fault {e : PortEvent} {s t : State} (he : e ≠ .reset) (hs : s.fault ≠ none)
    (h : port e s = .next t) : t.fault = s.fault := by
  by_cases hrun : e.inRun = true
  · rcases port_next_cases hrun h with ⟨-, hstep⟩ | ⟨-, rfl⟩ | ⟨-, -, -, hfault⟩
    · exact step_keeps_fault hs hstep
    · rfl
    · exact hfault
  · cases e with
    | reset => exact absurd rfl he
    | init => cases h; rfl
    | _ => exact absurd rfl hrun

/-! ### Runs -/

/-- The events determine the state a run comes to. -/
theorem Run.unique {s u u' : State} {past : List PortEvent} (h : Run s past u) (h' : Run s past u') : u = u' := by
  induction h generalizing u' with
  | init => cases h'; rfl
  | next _ _ _ hport ih =>
    cases h' with
    | next hrun' _ _ hport' =>
      cases ih hrun'
      rw [hport] at hport'
      cases hport'
      rfl

/-- A run on from the state `u` has not ended there, and its next event is one of a run and leads on from `u`. -/
theorem Run.next_of_append {s u t : State} {past later : List PortEvent} {e : PortEvent} (hu : Run s past u)
    (h : Run s (later ++ e :: past) t) :
    ∃ v, u.haltedCleanly = false ∧ e.inRun = true ∧ port e u = .next v ∧ Run s (e :: past) v := by
  induction later generalizing t with
  | nil =>
    cases h with
    | next hrun hnot hin hport =>
      cases hu.unique hrun
      exact ⟨t, hnot, hin, hport, .next hu hnot hin hport⟩
  | cons e' later ih =>
    cases h with
    | next hrun _ _ _ => exact ih hrun

/-- R33: a run that has come to a set fault marker keeps it. -/
theorem Run.fault_ne_none {s u t : State} {past later : List PortEvent} (hu : Run s past u) (hfault : u.fault ≠ none)
    (h : Run s (later ++ past) t) : t.fault ≠ none := by
  induction later generalizing t with
  | nil => exact hu.unique h ▸ hfault
  | cons e later ih =>
    cases h with
    | next hrun _ hin hport =>
      have hreset : e ≠ .reset := fun he => by cases he; cases hin
      have hprev := ih hrun
      rw [port_keeps_fault hreset hprev hport]
      exact hprev

/-- Settles O57: the marker stays through the rest of the run, and a normal end has none. -/
theorem aFaultedMachineHasNoNormalEnd : Obligations.AFaultedMachineHasNoNormalEnd := by
  refine ⟨fun e s t he hs h => port_keeps_fault he hs h, fun s u t past later hu hfault hend => ?_⟩
  obtain ⟨-, hnone⟩ := t.haltedCleanly_iff.mp hend.halted
  exact hu.fault_ne_none hfault hend.run hnone

/-! ### The end of a run (R110) -/

/-- R110: an event that ends a run normally is a step of TRAP 0x25 or `force_halt`, on a running machine. -/
theorem port_ends_cases {e : PortEvent} {u t : State} (hnot : u.haltedCleanly = false) (hin : e.inRun = true)
    (hport : port e u = .next t) (hend : t.haltedCleanly = true) :
    u.running = true ∧
      ((e = .step ∧ decode (u.readMem u.pc) = .trap 0x25 ∧ t = u.afterFetch.link.setHalt true) ∨
        (e = .forceHalt ∧ t = u.setHalt true)) := by
  obtain ⟨hhalt, hfault⟩ := t.haltedCleanly_iff.mp hend
  rcases port_next_cases hin hport with ⟨he, hstep⟩ | ⟨he, rfl⟩ | ⟨-, -, hhalt', hfault'⟩
  · rcases step_next_cases hstep with ⟨-, rfl⟩ | ⟨hrun, hexec⟩
    · rw [hend] at hnot
      cases hnot
    · obtain ⟨hrunning, -⟩ := u.running_iff.mp hrun
      have htrap : decode u.fetchWord = .trap 0x25 := by
        by_contra hi
        rw [exec_halt hexec hi, State.halt_afterFetch, hrunning] at hhalt
        cases hhalt
      rw [htrap, exec_trap_halt] at hexec
      cases hexec
      exact ⟨hrun, .inl ⟨he, htrap, rfl⟩⟩
  · exact ⟨State.running_of_not_ended hnot hfault, .inr ⟨he, rfl⟩⟩
  · rw [State.haltedCleanly, ← hhalt', ← hfault', ← State.haltedCleanly, hend] at hnot
    cases hnot

/-- Settles O55: the last event of the run, and what the state it leads to has in common with the one before. -/
theorem aRunEndsNormallyOnlyByHaltOrForceHalt : Obligations.ARunEndsNormallyOnlyByHaltOrForceHalt := by
  rintro s t past ⟨hrun, hend⟩
  obtain ⟨-, hfault⟩ := t.haltedCleanly_iff.mp hend
  cases hrun with
  | init => cases hend
  | @next past u _ e hrun hnot hin hport =>
    obtain ⟨hrunning, hcases⟩ := port_ends_cases hnot hin hport hend
    refine ⟨e, past, u, rfl, hrun, hrunning, hfault, ?_⟩
    rcases hcases with ⟨he, htrap, rfl⟩ | ⟨he, rfl⟩
    · exact .inl ⟨he, htrap, rfl, rfl, u.afterFetch.regsSameBut_link, rfl, fun _ => rfl, rfl, rfl⟩
    · exact .inr ⟨he, u.transfersOnly_forceHalt⟩

theorem State.not_ended_of_running {s : State} (h : s.running = true) : s.haltedCleanly = false := by
  obtain ⟨hhalt, -⟩ := s.running_iff.mp h
  rw [State.haltedCleanly, hhalt, Bool.false_and]

/-- Settles O56: both events are events of a run and lead to a state halted with no fault. -/
theorem haltAndForceHaltEndTheRun : Obligations.HaltAndForceHaltEndTheRun := by
  intro s u past hu hrun
  have hnot := State.not_ended_of_running hrun
  obtain ⟨-, hfault⟩ := u.running_iff.mp hrun
  refine ⟨fun htrap => ?_, .next hu hnot rfl rfl, (State.haltedCleanly_iff _).mpr ⟨rfl, hfault⟩⟩
  have hstep : step u = .next (u.afterFetch.link.setHalt true) := by
    rw [step_of_running hrun, htrap, exec_trap_halt]
  exact ⟨_, .next hu hnot rfl hstep, (State.haltedCleanly_iff _).mpr ⟨rfl, hfault⟩⟩

/-! ### The driver's loop (R109) -/

theorem driverLoop_of_faulted (calls : Nat) {u : State} (h : u.faulted = true) : driverLoop calls u = .faulted u := by
  cases calls <;> simp only [driverLoop, h, if_true]

theorem driverLoop_of_ended (calls : Nat) {u : State} (h : u.haltedCleanly = true) :
    driverLoop calls u = .normal u := by
  obtain ⟨hhalt, hfault⟩ := u.haltedCleanly_iff.mp h
  cases calls <;> simp [driverLoop, State.faulted, hhalt, hfault]

theorem driverLoop_zero_of_running {u : State} (h : u.running = true) : driverLoop 0 u = .ceased u := by
  obtain ⟨hhalt, hfault⟩ := u.running_iff.mp h
  simp [driverLoop, State.faulted, hhalt, hfault]

/-- R109: of a running machine the loop calls `step` and goes on from its next state; without one it reports no normal
end. -/
theorem driverLoop_succ_of_running {u : State} (h : u.running = true) (calls : Nat) (t : State) :
    driverLoop (calls + 1) u = .normal t ↔ ∃ v, step u = .next v ∧ driverLoop calls v = .normal t := by
  obtain ⟨hhalt, hfault⟩ := u.running_iff.mp h
  simp only [driverLoop, State.faulted, hhalt, hfault, Option.isSome_none, Bool.false_eq_true, if_false]
  cases step u <;> simp

theorem replicate_step_append (k : Nat) (past : List PortEvent) :
    List.replicate (k + 1) .step ++ past = List.replicate k .step ++ .step :: past := by
  rw [List.replicate_succ', List.append_assoc, List.singleton_append]

section
variable {s u : State} {past : List PortEvent} (hu : Run s past u)
include hu

theorem Run.endsNormally_iff (t : State) : EndsNormally s past t ↔ u = t ∧ u.haltedCleanly = true := by
  constructor
  · rintro ⟨hrun, hend⟩
    cases hu.unique hrun
    exact ⟨rfl, hend⟩
  · rintro ⟨rfl, hend⟩
    exact ⟨hu, hend⟩

theorem Run.not_endsNormally_of_running (hrunning : u.running = true) (t : State) : ¬ EndsNormally s past t := by
  rw [hu.endsNormally_iff, State.not_ended_of_running hrunning]
  rintro ⟨-, hend⟩
  cases hend

/-- A run that has ended is ended by no further steps. -/
theorem Run.not_endsNormally_succ_of_ended (hend : u.haltedCleanly = true) (k : Nat) (t : State) :
    ¬ EndsNormally s (List.replicate (k + 1) .step ++ past) t := by
  rw [replicate_step_append]
  rintro ⟨hrun, -⟩
  obtain ⟨_, hnot, -⟩ := hu.next_of_append hrun
  rw [hend] at hnot
  cases hnot

/-- The state a run has ended in is the one the loop reports at once. -/
theorem Run.driverLoop_iff_of_ended (hend : u.haltedCleanly = true) (calls : Nat) (t : State) :
    driverLoop calls u = .normal t ↔ ∃ k, k ≤ calls ∧ EndsNormally s (List.replicate k .step ++ past) t := by
  rw [driverLoop_of_ended calls hend, RunEnd.normal.injEq]
  constructor
  · rintro rfl
    exact ⟨0, calls.zero_le, hu, hend⟩
  · rintro ⟨_ | k, -, hk⟩
    · exact ((hu.endsNormally_iff t).mp hk).1
    · exact absurd hk (hu.not_endsNormally_succ_of_ended hend k t)

/-- On a faulted machine the loop reports no normal end, and there is none. -/
theorem Run.driverLoop_iff_of_faulted (hfault : u.fault ≠ none) (calls : Nat) (t : State) :
    driverLoop calls u = .normal t ↔ ∃ k, k ≤ calls ∧ EndsNormally s (List.replicate k .step ++ past) t := by
  rw [driverLoop_of_faulted calls (u.faulted_iff.mpr hfault)]
  obtain ⟨-, hnoend⟩ := aFaultedMachineHasNoNormalEnd
  exact ⟨nofun, fun ⟨k, _, hk⟩ => absurd hk (hnoend s u t past _ hu hfault)⟩

end

/-- A machine has faulted, has halted cleanly, or is running. -/
theorem State.ended_or_running (u : State) : u.fault ≠ none ∨ u.haltedCleanly = true ∨ u.running = true := by
  by_cases hfault : u.fault = none
  · cases hend : u.haltedCleanly with
    | true => exact .inr (.inl rfl)
    | false => exact .inr (.inr (State.running_of_not_ended hend hfault))
  · exact .inl hfault

/-- From any state a run has come to, the loop reports a normal end exactly where the run of steps alone ends. -/
theorem Run.driverLoop_iff {s : State} (t : State) (calls : Nat) :
    ∀ {past : List PortEvent} {u : State}, Run s past u →
      (driverLoop calls u = .normal t ↔ ∃ k, k ≤ calls ∧ EndsNormally s (List.replicate k .step ++ past) t) := by
  induction calls with
  | zero =>
    intro past u hu
    rcases u.ended_or_running with hfault | hend | hrunning
    · exact hu.driverLoop_iff_of_faulted hfault 0 t
    · exact hu.driverLoop_iff_of_ended hend 0 t
    · rw [driverLoop_zero_of_running hrunning]
      refine ⟨nofun, ?_⟩
      rintro ⟨k, hk, hends⟩
      obtain rfl : k = 0 := Nat.le_zero.mp hk
      exact absurd hends (hu.not_endsNormally_of_running hrunning t)
  | succ calls ih =>
    intro past u hu
    rcases u.ended_or_running with hfault | hend | hrunning
    · exact hu.driverLoop_iff_of_faulted hfault (calls + 1) t
    · exact hu.driverLoop_iff_of_ended hend (calls + 1) t
    · rw [driverLoop_succ_of_running hrunning]
      constructor
      · rintro ⟨v, hstep, hloop⟩
        have hv : Run s (.step :: past) v := .next hu (State.not_ended_of_running hrunning) rfl hstep
        obtain ⟨k, hk, hends⟩ := (ih hv).mp hloop
        exact ⟨k + 1, Nat.succ_le_succ hk, replicate_step_append k past ▸ hends⟩
      · rintro ⟨_ | k, hk, hends⟩
        · exact absurd hends (hu.not_endsNormally_of_running hrunning t)
        · rw [replicate_step_append] at hends
          obtain ⟨v, -, -, hstep, hv⟩ := hu.next_of_append hends.run
          exact ⟨v, hstep, (ih hv).mpr ⟨k, Nat.le_of_succ_le_succ hk, hends⟩⟩

/-- Settles O58: the run that `init` has just begun is one the loop can start from. -/
theorem theDriverLoopFindsTheNormalEnd : Obligations.TheDriverLoopFindsTheNormalEnd := by
  intro s t calls
  have hloop := Run.driverLoop_iff t calls (.init : Run s [] s.applyInit)
  simpa only [List.append_nil] using hloop

end Sys2Proof.Machine
end
